-- ==== Sys2Proof/Word.lean ====
section
/-! DEFINITION. The machine's word: one byte, and the name of a general register. -/

namespace Sys2Proof

/-- `u8` of 00_scope.md R8: an 8-bit unsigned value; bit 0 is the least significant. Addresses, register contents, opcode
and operand bytes and the pc all have this type (R6, R21, R35). `+`, `-` and `*` on it are `+8`, `-8` and `*8` of R9. -/
abbrev Byte := BitVec 8

/-- A register index 0..7 (10_state.md R15, R20). -/
abbrev Reg := Fin 8

/-- `SP` is the name of `x[7]` (10_state.md R17; SP_INDEX of 00_scope.md R7). -/
abbrev spReg : Reg := 7

/-- The operand byte that selects register `r` (30_encoding.md R54). -/
def Reg.byte (r : Reg) : Byte := BitVec.ofNat 8 r.val

end Sys2Proof
end

