-- ==== Sys2Proof/Config.lean ====
section
/-! DEFINITION. What an implementation fixes (00_scope.md R7): the parameters a machine is built with, and the open value. -/

namespace Sys2Proof

/-- OPCODE_MAP (00_scope.md R7, 30_encoding.md R52, 45_alu_extension.md R101): each mnemonic's opcode byte. -/
structure OpcodeMap where
  hlt : Byte
  push : Byte
  pop : Byte
  prn : Byte
  jmp : Byte
  jeq : Byte
  jne : Byte
  ldi : Byte
  mul : Byte
  cmp : Byte
  add : Byte
  sub : Byte
  and : Byte
  or : Byte
  xor : Byte
  shl : Byte
  shr : Byte
  deriving DecidableEq, Repr

/-- The parameters of 00_scope.md R7 that the behaviour of a run depends on. -/
structure Params where
  /-- OPCODE_MAP -/
  opcodes : OpcodeMap
  /-- ALU_EXT: the optional extension of 45_alu_extension.md is present. -/
  aluExt : Bool
  /-- CMP_STICKY_EQ: an unequal CMP leaves FL.E (41_alu.md R87). -/
  cmpStickyEq : Bool
  /-- TRACE_ENABLE: the optional trace port shows each cycle (40_engine.md R70). -/
  traceEnable : Bool
  /-- SP_RESET: the value of x[7] at reset (10_state.md R34). -/
  spReset : Byte
  deriving DecidableEq, Repr

/-- EXIT_OTHER_FAULT (00_scope.md R7, OPEN): the exit code of UnsupportedOperation and RegisterIndexFault. It has no body,
so a statement about it holds for every value (notes/assumptions/4.md). -/
opaque Config.exitOtherFault : Nat

end Sys2Proof
end

