-- ==== Sys2Proof/Syntax.lean ====
section
/-! DEFINITION. The instructions: one constructor per row of spec/opcode_table.json (40_engine.md R79). -/

namespace Sys2Proof

/-- The mnemonics of 30_encoding.md R52 and 45_alu_extension.md R101. -/
inductive Mnemonic where
  | hlt | push | pop | prn | jmp | jeq | jne | ldi | mul | cmp
  | add | sub | and | or | xor | shl | shr
  deriving DecidableEq, Repr

/-- The four formats of 30_encoding.md R51. -/
inductive Format where
  /-- no operand -/
  | n
  /-- one register -/
  | r
  /-- two registers -/
  | rr
  /-- a register and an immediate -/
  | ri
  deriving DecidableEq, Repr

/-- An instruction with the raw operand bytes its format uses (40_engine.md R73: handlers "take the two raw operand bytes").
`ra` and `rb` are register operand bytes, not yet checked (R72); `imm` is LDI's immediate (30_encoding.md R55). -/
inductive Instr where
  | hlt
  | push (ra : Byte)
  | pop (ra : Byte)
  | prn (ra : Byte)
  | jmp (ra : Byte)
  | jeq (ra : Byte)
  | jne (ra : Byte)
  | ldi (ra imm : Byte)
  | mul (ra rb : Byte)
  | cmp (ra rb : Byte)
  | add (ra rb : Byte)
  | sub (ra rb : Byte)
  | and (ra rb : Byte)
  | or (ra rb : Byte)
  | xor (ra rb : Byte)
  | shl (ra rb : Byte)
  | shr (ra rb : Byte)
  deriving DecidableEq, Repr

end Sys2Proof
end

