-- ==== Sys2Proof/WellFormed.lean ====
section
/-! DEFINITION. Which instructions the register-operand check of 40_engine.md R72 lets through, and which opcode maps
30_encoding.md R52 admits. -/

namespace Sys2Proof

/-- `RegOperands` of 40_engine.md R65: the operand bytes the format defines as registers, in the order opa, opb. -/
def Instr.regOperands : Instr → List Byte
  | .hlt => []
  | .push ra | .pop ra | .prn ra | .jmp ra | .jeq ra | .jne ra => [ra]
  | .ldi ra _ => [ra]
  | .mul ra rb | .cmp ra rb | .add ra rb | .sub ra rb | .and ra rb | .or ra rb | .xor ra rb | .shl ra rb | .shr ra rb =>
    [ra, rb]

/-- A register operand byte lies in 0..7 (10_state.md R20). -/
def regByteOk (b : Byte) : Bool := decide (b.toNat ≤ 7)

/-- Every register operand byte is in range (40_engine.md R72). -/
def Instr.wellFormed (i : Instr) : Bool := i.regOperands.all regByteOk

/-- The first register operand byte above 7, which is the one R72 reports. -/
def Instr.firstBadReg (i : Instr) : Option Byte := i.regOperands.find? fun b => !regByteOk b

/-- OPCODE_MAP as a function of the mnemonic. -/
def OpcodeMap.opcode (m : OpcodeMap) : Mnemonic → Byte
  | .hlt => m.hlt | .push => m.push | .pop => m.pop | .prn => m.prn | .jmp => m.jmp | .jeq => m.jeq | .jne => m.jne
  | .ldi => m.ldi | .mul => m.mul | .cmp => m.cmp | .add => m.add | .sub => m.sub | .and => m.and | .or => m.or
  | .xor => m.xor | .shl => m.shl | .shr => m.shr

/-- The mnemonics in the order of spec/opcode_table.json. -/
def Mnemonic.all : List Mnemonic :=
  [.hlt, .push, .pop, .prn, .jmp, .jeq, .jne, .ldi, .mul, .cmp, .add, .sub, .and, .or, .xor, .shl, .shr]

/-- 30_encoding.md R52 lets OPCODE_MAP be any injective assignment: no byte is given twice. -/
def OpcodeMap.wellFormed (m : OpcodeMap) : Bool := decide (Mnemonic.all.map m.opcode).Nodup

end Sys2Proof
end

