-- ==== Sys2Proof/Decode.lean ====
section
/-! DEFINITION. Decoding the three-byte fetch window (30_encoding.md, 40_engine.md R67) and, after it, the encoder. -/

namespace Sys2Proof

/-- The opcode bytes of 30_encoding.md R52 and 45_alu_extension.md R101: the default OPCODE_MAP. -/
def OpcodeMap.ls8 : OpcodeMap where
  hlt := 0x01
  push := 0x45
  pop := 0x46
  prn := 0x47
  jmp := 0x54
  jeq := 0x55
  jne := 0x56
  ldi := 0x82
  mul := 0xA2
  cmp := 0xA7
  add := 0xA0
  sub := 0xA1
  and := 0xA8
  or := 0xAA
  xor := 0xAB
  shl := 0xAC
  shr := 0xAD

/-- The mnemonics that only ALU_EXT puts into the dispatch table (45_alu_extension.md R101). -/
def Mnemonic.isExt : Mnemonic → Bool
  | .hlt | .push | .pop | .prn | .jmp | .jeq | .jne | .ldi | .mul | .cmp => false
  | .add | .sub | .and | .or | .xor | .shl | .shr => true

/-- The format column of 30_encoding.md R52 and 45_alu_extension.md R101. -/
def Mnemonic.format : Mnemonic → Format
  | .hlt => .n
  | .push | .pop | .prn | .jmp | .jeq | .jne => .r
  | .ldi => .ri
  | .mul | .cmp | .add | .sub | .and | .or | .xor | .shl | .shr => .rr

/-- An instruction's length in bytes, "operand-count + 1" (30_encoding.md R50, R51). -/
def Format.length : Format → Nat
  | .n => 1
  | .r => 2
  | .rr => 3
  | .ri => 3

/-- The fetch latches of 10_state.md R31: the three bytes one cycle reads. -/
structure Window where
  ir : Byte
  opa : Byte
  opb : Byte
  deriving DecidableEq, Repr

/-- The window at the head of a list of bytes at ascending addresses (30_encoding.md R51, 20_memory.md R36); bytes past the
list's end read 0x00, as unwritten memory does (10_state.md R34). -/
def Window.ofBytes : List Byte → Window
  | [] => ⟨0, 0, 0⟩
  | [a] => ⟨a, 0, 0⟩
  | [a, b] => ⟨a, b, 0⟩
  | a :: b :: c :: _ => ⟨a, b, c⟩

/-- What decoding answers: an instruction, or the opcode byte that is not in the dispatch table (40_engine.md R71). -/
inductive Decoded where
  | ok (i : Instr)
  | illegalOpcode (ir : Byte)
  deriving DecidableEq, Repr

/-- `Dispatch(IR)` of 40_engine.md R67: the mnemonic whose opcode is the whole byte IR, among those the machine has
(30_encoding.md R56). -/
def dispatch (m : OpcodeMap) (ext : Bool) (ir : Byte) : Option Mnemonic :=
  Mnemonic.all.find? fun k => m.opcode k == ir && (ext || !k.isExt)

/-- The instruction a mnemonic and the two operand bytes make; a byte the format does not use is ignored
(30_encoding.md R51, R57). -/
def Mnemonic.assemble (k : Mnemonic) (opa opb : Byte) : Instr :=
  match k with
  | .hlt => .hlt
  | .push => .push opa
  | .pop => .pop opa
  | .prn => .prn opa
  | .jmp => .jmp opa
  | .jeq => .jeq opa
  | .jne => .jne opa
  | .ldi => .ldi opa opb
  | .mul => .mul opa opb
  | .cmp => .cmp opa opb
  | .add => .add opa opb
  | .sub => .sub opa opb
  | .and => .and opa opb
  | .or => .or opa opb
  | .xor => .xor opa opb
  | .shl => .shl opa opb
  | .shr => .shr opa opb

/-- Decoding, total on any window (30_encoding.md R56, R58). -/
def decode (m : OpcodeMap) (ext : Bool) (w : Window) : Decoded :=
  match dispatch m ext w.ir with
  | some k => .ok (k.assemble w.opa w.opb)
  | none => .illegalOpcode w.ir

/-- The bytes of an instruction numbered as spec/opcode_table.json numbers its bits: byte 0 is the least significant; every
bit from `nbits` on is 0. -/
def Window.ofTableWord (nbits w : Nat) : Window :=
  let v := w % 2 ^ nbits
  ⟨BitVec.ofNat 8 v, BitVec.ofNat 8 (v / 2 ^ 8), BitVec.ofNat 8 (v / 2 ^ 16)⟩

/-- The instruction this decoder reads from a word of spec/opcode_table.json: the table's bytes are the default OPCODE_MAP,
and its extension rows need ALU_EXT true (notes/assumptions/5.md). -/
def decodeTableWord (nbits w : Nat) : Option Instr :=
  match decode .ls8 true (Window.ofTableWord nbits w) with
  | .ok i => some i
  | .illegalOpcode _ => none

/-- An instruction's mnemonic. -/
def Instr.mnemonic : Instr → Mnemonic
  | .hlt => .hlt
  | .push _ => .push
  | .pop _ => .pop
  | .prn _ => .prn
  | .jmp _ => .jmp
  | .jeq _ => .jeq
  | .jne _ => .jne
  | .ldi _ _ => .ldi
  | .mul _ _ => .mul
  | .cmp _ _ => .cmp
  | .add _ _ => .add
  | .sub _ _ => .sub
  | .and _ _ => .and
  | .or _ _ => .or
  | .xor _ _ => .xor
  | .shl _ _ => .shl
  | .shr _ _ => .shr

/-- The operand bytes that follow the opcode (30_encoding.md R51). -/
def Instr.operandBytes : Instr → List Byte
  | .hlt => []
  | .push ra | .pop ra | .prn ra | .jmp ra | .jeq ra | .jne ra => [ra]
  | .ldi ra imm => [ra, imm]
  | .mul ra rb | .cmp ra rb | .add ra rb | .sub ra rb | .and ra rb | .or ra rb | .xor ra rb | .shl ra rb | .shr ra rb =>
    [ra, rb]

/-- The encoding of an instruction: opcode, then byte 1 and byte 2 as its format uses them (30_encoding.md R62). -/
def encode (m : OpcodeMap) (i : Instr) : List Byte := m.opcode i.mnemonic :: i.operandBytes

end Sys2Proof
end

