-- ==== Sys2Proof/Machine/Defaults.lean ====
section
/-! DEFINITION. The parameters of the machine that `State.reset` builds: the defaults of 00_scope.md R7. -/

namespace Sys2Proof.Machine

/-- SP_RESET of the default machine. The spec leaves it OPEN and instantiates it as 0xF4, the LS-8 family's value, in its
test vectors (92_eei_decisions.md D4, 93_implementation_defined.md G5). PRESUMED, unsafe (notes/assumptions/1.md): statements
about reset are made over `State.resetWith p` for every `p`. -/
def defaultSpReset : Byte := 0xF4

/-- The defaults of 00_scope.md R7: OPCODE_MAP the table of 30_encoding.md R52, ALU_EXT, CMP_STICKY_EQ and TRACE_ENABLE
false. -/
def defaultParams : Params where
  opcodes := .ls8
  aluExt := false
  cmpStickyEq := false
  traceEnable := false
  spReset := defaultSpReset

end Sys2Proof.Machine
end

