-- ==== Sys2Proof/Machine/State.lean ====
section
/-! DEFINITION. The state of one machine instance (10_state.md) and the state after reset (R34, 70_reset_and_hazards.md). -/

namespace Sys2Proof.Machine

/-- The ALU's operator select (41_alu.md R81, 45_alu_extension.md R100): the nine named operators, or any other code. -/
inductive AluOp where
  | add | sub | mul | cmp | and | or | xor | shl | shr
  /-- an operator outside every operator set (41_alu.md R83) -/
  | other (code : Nat)
  deriving DecidableEq, Repr

/-- The exceptions of 60_exceptions.md R111, each with the values it records. All are raised by `raise`, as a next state:
none is a fault of the model. -/
inductive Cause where
  /-- opcode byte not in the dispatch table: the byte and its address (40_engine.md R71) -/
  | illegalInstruction (ir pc : Byte)
  /-- ALU operator outside its set (41_alu.md R83) -/
  | unsupportedOperation (op : AluOp)
  /-- register operand byte above 7: the byte and the address of the opcode (40_engine.md R72) -/
  | registerIndexFault (index pc : Byte)
  deriving DecidableEq, Repr

/-- The engine status (10_state.md R28): Running, or a terminal status. -/
inductive Status where
  | running
  | halted
  | failed (cause : Cause)
  deriving DecidableEq, Repr

/-- Memory M (10_state.md R27): (address, byte) pairs, addresses strictly rising, no byte listed that equals what an
unlisted address reads as (`Memory.wf`, notes/assumptions/9.md). -/
abbrev Memory := List Host.Cell

/-- The state tuple of 10_state.md, with the parameters of 00_scope.md R7 beside it (notes/assumptions/2.md: no instruction
writes them). -/
structure State where
  /-- x[0]..x[7] (R15) -/
  regs : Vector Byte 8
  /-- FL[0]..FL[7] (R24) -/
  fl : Vector Bool 8
  /-- pc (R21) -/
  pc : Byte
  /-- M (R27) -/
  mem : Memory
  /-- the engine status (R28) -/
  status : Status
  /-- the values PRN has emitted, oldest first (R29) -/
  out : List Byte
  /-- the parameters of the machine; a model's own field -/
  params : Params
  deriving DecidableEq, Repr

/-- Why a step stops with no next state. -/
inductive Fault where
  /-- Raised by `step` alone, in a terminal status: "No step is defined from a terminal status" (40_engine.md R64, R68).
  Safe: the spec's machine has no step there either (notes/assumptions/6.md). -/
  | terminated
  deriving DecidableEq, Repr

/-- Why an instruction has no meaning. -/
inductive Refusal where
  /-- Raised by an arm of `exec` whose instruction is not modelled. No arm is left that raises it. Safe. -/
  | notModelled (mnemonic : String)
  deriving DecidableEq, Repr

/-- The reset state of a machine with parameters `p` (10_state.md R34, 70_reset_and_hazards.md R128 step 1). -/
def State.resetWith (p : Params) : State where
  regs := #v[0, 0, 0, 0, 0, 0, 0, p.spReset]
  fl := #v[false, false, false, false, false, false, false, false]
  pc := 0
  mem := []
  status := .running
  out := []
  params := p

/-- The machine right after reset, its parameters at their defaults. -/
def State.reset : State := State.resetWith defaultParams

end Sys2Proof.Machine
end

