-- ==== Sys2Proof/Machine/Ops.lean ====
section
/-! DEFINITION. The named operations over memory, registers, output, pc and status (00_scope.md R10, R11). -/

namespace Sys2Proof.Machine

/-- What an address that nothing has written reads as (10_state.md R34, 92_eei_decisions.md D8). -/
def unlistedByte : Byte := 0x00

/-- The byte at an address. -/
def Memory.read : Memory → Nat → Byte
  | [], _ => unlistedByte
  | (k, v) :: rest, a => if k = a then v else Memory.read rest a

/-- Memory with no entry for `a`. -/
def Memory.erase (m : Memory) (a : Nat) : Memory := m.filter fun c => c.1 != a

/-- Memory with an entry for `a` before the first greater address. -/
def Memory.insert : Memory → Nat → Byte → Memory
  | [], a, v => [(a, v)]
  | (k, w) :: rest, a, v => if k < a then (k, w) :: Memory.insert rest a v else (a, v) :: (k, w) :: rest

/-- `Memory.write(address, byte)` of 20_memory.md R37: writing the byte an unlisted address reads as removes the entry. -/
def Memory.write (m : Memory) (a : Nat) (v : Byte) : Memory :=
  if v = unlistedByte then m.erase a else (m.erase a).insert a v

/-- The canonical form from address `lo` on. -/
def Memory.wfFrom : Nat → Memory → Bool
  | _, [] => true
  | lo, (k, v) :: rest => decide (lo ≤ k) && decide (k < 256) && decide (v ≠ unlistedByte) && Memory.wfFrom (k + 1) rest

/-- The canonical form: addresses strictly rising, all of the 256 the machine has (10_state.md R27), none listed with the
byte an unlisted address reads as. -/
def Memory.wf (m : Memory) : Bool := Memory.wfFrom 0 m

/-- `x[i]` (00_scope.md R10). -/
def State.reg (s : State) (r : Reg) : Byte := s.regs[r]

/-- `x[i] <- v` (00_scope.md R10); no register is hardwired (10_state.md R16). -/
def State.setReg (s : State) (r : Reg) (v : Byte) : State := { s with regs := s.regs.set r v }

/-- `MemRead(a, 1)` (00_scope.md R10, 20_memory.md R37). -/
def State.memRead (s : State) (a : Byte) : Byte := s.mem.read a.toNat

/-- `MemWrite(a, 1, v)` (00_scope.md R10, 20_memory.md R37). -/
def State.memWrite (s : State) (a v : Byte) : State := { s with mem := s.mem.write a.toNat v }

/-- `emit(v)` (00_scope.md R11). -/
def State.emit (s : State) (v : Byte) : State := { s with out := s.out ++ [v] }

/-- `pc <- target` (00_scope.md R10). -/
def State.setPc (s : State) (target : Byte) : State := { s with pc := target }

/-- The sequential pc update, `p +8 n` (40_engine.md R74; 10_state.md R23: modulo 256). -/
def State.advance (s : State) (n : Byte) : State := s.setPc (s.pc + n)

/-- The status `status`, every other field as it was. -/
def State.setStatus (s : State) (status : Status) : State := { s with status := status }

/-- `raise F(info)` (00_scope.md R11, 60_exceptions.md R110, R116): taking an exception is the move to its terminal status;
pc stays on the opcode and nothing else changes. -/
def raise (c : Cause) (s : State) : Host.Outcome State Fault Refusal := .next (s.setStatus (.failed c))

/-- The fetch window of 40_engine.md R69: M[p], M[p +8 1], M[p +8 2]. -/
def State.fetch (s : State) : Window := ⟨s.memRead s.pc, s.memRead (s.pc + 1), s.memRead (s.pc + 2)⟩

/-- The opcode byte belongs to an instruction that only ALU_EXT puts into the dispatch table. -/
def isExtOpcode (m : OpcodeMap) (ir : Byte) : Bool :=
  match dispatch m true ir with
  | some k => k.isExt
  | none => false

/-- `s` with the window `w` where the next step fetches, and with what the step needs to fetch and run it: status Running
(40_engine.md R64), and ALU_EXT true where the dispatch table holds the opcode only then (notes/assumptions/5.md). -/
def State.placeWindow (s : State) (w : Window) : State :=
  let t := ((s.memWrite s.pc w.ir).memWrite (s.pc + 1) w.opa).memWrite (s.pc + 2) w.opb
  { t with
    status := .running
    params := { s.params with aluExt := s.params.aluExt || isExtOpcode s.params.opcodes w.ir } }

end Sys2Proof.Machine
end

