-- ==== Sys2Proof/Machine/Flags.lean ====
section
/-! DEFINITION. The flag register (10_state.md R24 to R26) and the one flag computation there is (41_alu.md R84, R87). -/

namespace Sys2Proof.Machine

/-- `FL[k]` (00_scope.md R10). -/
def State.flag (s : State) (k : Fin 8) : Bool := s.fl[k]

/-- `FL.E` is another name for `FL[7]` (10_state.md R24). -/
def State.flagE (s : State) : Bool := s.flag 7

/-- `FL.E <- e`; FL[0] to FL[6] are never written (10_state.md R26). -/
def State.setFlagE (s : State) (e : Bool) : State := { s with fl := s.fl.set 7 e }

/-- The new FL.E of a CMP (41_alu.md R87): `eq`, or under CMP_STICKY_EQ the old flag where the operands differ. -/
def cmpFlag (sticky old eq : Bool) : Bool := if sticky then (if eq then true else old) else eq

end Sys2Proof.Machine
end

