-- ==== Sys2Proof/Machine/Operands.lean ====
section
/-! DEFINITION. Register operands and their check (40_engine.md R72, 30_encoding.md R54). -/

namespace Sys2Proof.Machine

/-- The register an operand byte selects: `x[b]` for b in 0..7, not masked or reduced (30_encoding.md R54). -/
def regOf (b : Byte) : Option Reg := if h : b.toNat < 8 then some ⟨b.toNat, h⟩ else none

/-- Runs `k` on the register `b` selects, or raises RegisterIndexFault(b, p) (40_engine.md R72). -/
def withReg (b : Byte) (s : State) (k : Reg → Host.Outcome State Fault Refusal) : Host.Outcome State Fault Refusal :=
  match regOf b with
  | some r => k r
  | none => raise (.registerIndexFault b s.pc) s

/-- The check of format RR: opa first, then opb (40_engine.md R72, 60_exceptions.md R115), both before `k`. -/
def withRegs (ra rb : Byte) (s : State) (k : Reg → Reg → Host.Outcome State Fault Refusal) :
    Host.Outcome State Fault Refusal :=
  withReg ra s fun a => withReg rb s fun b => k a b

end Sys2Proof.Machine
end

