-- ==== Sys2Proof/Machine/Alu.lean ====
section
/-! DEFINITION. The ALU (41_alu.md R81 to R85, 45_alu_extension.md R100) and its normative instructions, MUL and CMP. -/

namespace Sys2Proof.Machine

/-- The ALU's output ports (41_alu.md R81); `none` on a port the operation does not drive. -/
structure AluOut where
  result : Option Byte
  eq : Option Bool
  unsupported : Bool
  deriving DecidableEq, Repr

/-- The operator is in the ALU's operator set (41_alu.md R81; widened by ALU_EXT, 45_alu_extension.md R100). -/
def AluOp.supported (ext : Bool) : AluOp → Bool
  | .add | .mul | .cmp => true
  | .sub | .and | .or | .xor | .shl | .shr => ext
  | .other _ => false

/-- What each operator computes (41_alu.md R82, 45_alu_extension.md R102 to R108); CMP and an operator outside every set
drive no result. -/
def AluOp.value (op : AluOp) (a b : Byte) : Option Byte :=
  match op with
  | .add => some (a + b)
  | .sub => some (a - b)
  | .mul => some (a * b)
  | .and => some (a &&& b)
  | .or => some (a ||| b)
  | .xor => some (a ^^^ b)
  | .shl => some (a <<< b.toNat)
  | .shr => some (a >>> b.toNat)
  | .cmp | .other _ => none

/-- The eq port: for CMP, equality of the two bytes bit for bit (41_alu.md R84). -/
def AluOp.eqPort (op : AluOp) (a b : Byte) : Option Bool :=
  match op with
  | .cmp => some (a == b)
  | .add | .sub | .mul | .and | .or | .xor | .shl | .shr | .other _ => none

/-- `alu(op, a, b)` (41_alu.md R81): outside the operator set only `unsupported` is driven (R83). -/
def alu (ext : Bool) (op : AluOp) (a b : Byte) : AluOut :=
  if op.supported ext then ⟨op.value a b, op.eqPort a b, false⟩ else ⟨none, none, true⟩

/-- The result port into a register, where it is driven. -/
def State.writeResult (s : State) (r : Reg) : Option Byte → State
  | some v => s.setReg r v
  | none => s

/-- The eq port into FL.E, where it is driven (41_alu.md R87). -/
def State.writeEq (s : State) : Option Bool → State
  | some e => s.setFlagE (cmpFlag s.params.cmpStickyEq s.flagE e)
  | none => s

/-- Every ALU instruction, given its operator: the register check, both reads, the ALU, the driven port written back and
pc +8 3 (41_alu.md R86, R87; 45_alu_extension.md section 2); UnsupportedOperation where the ALU reports it (R83). -/
def execAlu (op : AluOp) (ra rb : Byte) (s : State) : Host.Outcome State Fault Refusal :=
  withRegs ra rb s fun a b =>
    let o := alu s.params.aluExt op (s.reg a) (s.reg b)
    if o.unsupported then raise (.unsupportedOperation op) s
    else .next (((s.writeResult a o.result).writeEq o.eq).advance 3)

/-- `MUL ra, rb` (41_alu.md R86). -/
def execMul (ra rb : Byte) (s : State) : Host.Outcome State Fault Refusal := execAlu .mul ra rb s

/-- `CMP ra, rb` (41_alu.md R87). -/
def execCmp (ra rb : Byte) (s : State) : Host.Outcome State Fault Refusal := execAlu .cmp ra rb s

end Sys2Proof.Machine
end

