-- ==== Sys2Proof/Machine/AluExt.lean ====
section
/-! DEFINITION. The optional ALU extension's instructions (45_alu_extension.md). Each passes its own operator to the ALU
(R100); with ALU_EXT false none of them is in the dispatch table, and an operator the ALU then lacks is UnsupportedOperation
(notes/assumptions/14.md). -/

namespace Sys2Proof.Machine

/-- `ADD ra, rb` (R102). -/
def execAdd (ra rb : Byte) (s : State) : Host.Outcome State Fault Refusal := execAlu .add ra rb s

/-- `SUB ra, rb` (R103). -/
def execSub (ra rb : Byte) (s : State) : Host.Outcome State Fault Refusal := execAlu .sub ra rb s

/-- `AND ra, rb` (R104). -/
def execAnd (ra rb : Byte) (s : State) : Host.Outcome State Fault Refusal := execAlu .and ra rb s

/-- `OR ra, rb` (R105). -/
def execOr (ra rb : Byte) (s : State) : Host.Outcome State Fault Refusal := execAlu .or ra rb s

/-- `XOR ra, rb` (R106). -/
def execXor (ra rb : Byte) (s : State) : Host.Outcome State Fault Refusal := execAlu .xor ra rb s

/-- `SHL ra, rb` (R107): the shift amount is the whole byte x[rb]. -/
def execShl (ra rb : Byte) (s : State) : Host.Outcome State Fault Refusal := execAlu .shl ra rb s

/-- `SHR ra, rb` (R108): logical, the shift amount is the whole byte x[rb]. -/
def execShr (ra rb : Byte) (s : State) : Host.Outcome State Fault Refusal := execAlu .shr ra rb s

end Sys2Proof.Machine
end

