-- ==== Sys2Proof/Machine/Control.lean ====
section
/-! DEFINITION. JMP, JEQ, JNE and HLT (44_control.md). -/

namespace Sys2Proof.Machine

/-- A conditional jump to x[ra]: the register is checked whether or not the jump is taken (40_engine.md R72). -/
def jumpIf (taken : Bool) (ra : Byte) (s : State) : Host.Outcome State Fault Refusal :=
  withReg ra s fun a => .next (if taken then s.setPc (s.reg a) else s.advance 2)

/-- `JMP ra` (R96). -/
def execJmp (ra : Byte) (s : State) : Host.Outcome State Fault Refusal := jumpIf true ra s

/-- `JEQ ra` (R97). -/
def execJeq (ra : Byte) (s : State) : Host.Outcome State Fault Refusal := jumpIf s.flagE ra s

/-- `JNE ra` (R98). -/
def execJne (ra : Byte) (s : State) : Host.Outcome State Fault Refusal := jumpIf (!s.flagE) ra s

/-- `HLT` (R99): `halt(0)`, and pc keeps the address of the HLT byte. -/
def execHlt (s : State) : Host.Outcome State Fault Refusal := .next (s.setStatus .halted)

end Sys2Proof.Machine
end

