-- ==== Sys2Proof/Machine/LoadOutput.lean ====
section
/-! DEFINITION. LDI and PRN (42_load_output.md). -/

namespace Sys2Proof.Machine

/-- `LDI ra, imm` (R90): the immediate is stored unchanged and never checked. -/
def execLdi (ra imm : Byte) (s : State) : Host.Outcome State Fault Refusal :=
  withReg ra s fun a => .next ((s.setReg a imm).advance 3)

/-- `PRN ra` (R91): the emit completes within the step. -/
def execPrn (ra : Byte) (s : State) : Host.Outcome State Fault Refusal :=
  withReg ra s fun a => .next ((s.emit (s.reg a)).advance 2)

end Sys2Proof.Machine
end

