-- ==== Sys2Proof/Machine/Stack.lean ====
section
/-! DEFINITION. PUSH and POP (43_stack.md). -/

namespace Sys2Proof.Machine

/-- The address a PUSH stores to: x[7] after its decrement, modulo 256 (R92, 20_memory.md R42). -/
def State.pushAddr (s : State) : Byte := s.reg spReg - 1

/-- `PUSH ra` (R92): decrement SP, then read the register, then write memory. -/
def execPush (ra : Byte) (s : State) : Host.Outcome State Fault Refusal :=
  withReg ra s fun a =>
    let s1 := s.setReg spReg s.pushAddr
    .next ((s1.memWrite s.pushAddr (s1.reg a)).advance 2)

/-- `POP ra` (R93): read memory, write the register, then increment SP as the write left it. -/
def execPop (ra : Byte) (s : State) : Host.Outcome State Fault Refusal :=
  withReg ra s fun a =>
    let s1 := s.setReg a (s.memRead (s.reg spReg))
    .next ((s1.setReg spReg (s1.reg spReg + 1)).advance 2)

end Sys2Proof.Machine
end

