-- ==== Sys2Proof/Machine/Step.lean ====
section
/-! DEFINITION. One step: one complete cycle of one instruction (40_engine.md R65). -/

namespace Sys2Proof.Machine

/-- The step of 40_engine.md R65: defined exactly when status is Running (R64, R68); fetch (R69), decode (R71), then the
instruction, whose meaning makes the register check (R72), its effect (R73) and the pc update (R74). -/
def step (s : State) : Host.Outcome State Fault Refusal :=
  match s.status with
  | .running =>
    match decode s.params.opcodes s.params.aluExt s.fetch with
    | .ok i => exec i s
    | .illegalOpcode ir => raise (.illegalInstruction ir s.pc) s
  | .halted | .failed _ => .fault .terminated

/-- `s` with the instruction of a word of spec/opcode_table.json where the next step fetches (notes/assumptions/5.md, 8.md). -/
def State.withFetchWord (s : State) (nbits w : Nat) : State := s.placeWindow (Window.ofTableWord nbits w)

end Sys2Proof.Machine
end

