-- ==== Sys2Proof/Machine/Ports.lean ====
section
/-! DEFINITION. The core's contacts with the host (60_exceptions.md R121): the loader, the exit code and the trace port. -/

namespace Sys2Proof.Machine

/-- The exit code a status presents (10_state.md R28, 60_exceptions.md R111); none while Running. -/
def exitCode : Status → Option Nat
  | .running => none
  | .halted => some 0
  | .failed (.illegalInstruction _ _) => some 1
  | .failed (.unsupportedOperation _) => some Config.exitOtherFault
  | .failed (.registerIndexFault _ _) => some Config.exitOtherFault

/-- What the trace port presents in one cycle (40_engine.md R70): pc, the three fetched bytes, the 8 registers. -/
structure TraceEntry where
  pc : Byte
  window : Window
  regs : Vector Byte 8
  deriving DecidableEq, Repr

/-- The trace port in the cycle that starts in `s`: after the fetch, before decode and execute, so a cycle that then faults
is shown too (40_engine.md R70, 92_eei_decisions.md D27). It is a function of the state and changes none. -/
def tracePort (s : State) : Option TraceEntry :=
  match s.status with
  | .running => if s.params.traceEnable then some ⟨s.pc, s.fetch, s.regs⟩ else none
  | .halted | .failed _ => none

/-- The loader's byte writes, in increasing address order from `a` (20_memory.md R44, 70_reset_and_hazards.md R129). -/
def Memory.writeList (m : Memory) (a : Nat) : List Byte → Memory
  | [] => m
  | b :: rest => (m.write a b).writeList (a + 1) rest

/-- The state after reset and load (70_reset_and_hazards.md R128 steps 1 and 2): the program's bytes at addresses 0, 1, 2, ...
A program of more than 256 bytes cannot be loaded (20_memory.md R44, 92_eei_decisions.md D20). The loader writes only here,
between reset and start (R129). -/
def State.boot (p : Params) (program : List Byte) : Option State :=
  if program.length ≤ 256 then
    some { State.resetWith p with mem := (State.resetWith p).mem.writeList 0 program }
  else none

end Sys2Proof.Machine
end

