-- ==== Sys2Proof/Safety.lean ====
section
/-! DEFINITION. What counts as a safe run, the invariants, and the frame predicates in which the statements are written. -/

namespace Sys2Proof.Machine

/-- What the next cycle decodes (40_engine.md R65). -/
abbrev State.decoded (s : State) : Decoded := decode s.params.opcodes s.params.aluExt s.fetch

/-- A status no fault has reached: Running or Halted (60_exceptions.md R111: Halted is the normal end). -/
def Status.isSafe : Status → Bool
  | .running | .halted => true
  | .failed _ => false

/-- `s` with status Failed(c) and every other field as it is: where an exception leads (60_exceptions.md R116). -/
abbrev State.failedWith (s : State) (c : Cause) : State := { s with status := .failed c }

/-- The data invariant: memory in its canonical form, FL[0] to FL[6] false (10_state.md R26), OPCODE_MAP injective
(30_encoding.md R52). -/
abbrev Canonical (s : State) : Prop :=
  s.mem.wf = true ∧ (∀ k : Fin 8, k ≠ 7 → s.flag k = false) ∧ s.params.opcodes.wellFormed = true

/-- A terminal status names its own cause, which still stands at pc (40_engine.md R71, R72, R76; 44_control.md R99):
Halted on a HLT, IllegalInstruction on a byte outside the dispatch table, RegisterIndexFault on the first bad register byte of
the instruction there; UnsupportedOperation never (41_alu.md R83). -/
def Explained (s : State) : Prop :=
  match s.status with
  | .running => True
  | .halted => s.decoded = .ok .hlt
  | .failed (.illegalInstruction ir p) => p = s.pc ∧ ir = s.memRead s.pc ∧ s.decoded = .illegalOpcode ir
  | .failed (.registerIndexFault b p) => p = s.pc ∧ ∃ i, s.decoded = .ok i ∧ i.firstBadReg = some b
  | .failed (.unsupportedOperation _) => False

/-- Every register but those of `l` reads in `t` as in `s`. -/
abbrev SameRegsBut (l : List Reg) (s t : State) : Prop := ∀ r, r ∉ l → t.reg r = s.reg r

/-- Every flag cell reads in `t` as in `s`. -/
abbrev SameFlags (s t : State) : Prop := ∀ k, t.flag k = s.flag k

/-- Every byte of memory reads in `t` as in `s`. -/
abbrev SameMemory (s t : State) : Prop := ∀ q, t.memRead q = s.memRead q

/-- Status, output and parameters are in `t` as in `s`. -/
abbrev SameRest (s t : State) : Prop := t.status = s.status ∧ t.out = s.out ∧ t.params = s.params

/-- `s` with TRACE_ENABLE set to `b`. -/
abbrev State.withTrace (s : State) (b : Bool) : State := { s with params := { s.params with traceEnable := b } }

/-- Under the default OPCODE_MAP (and, for an extension instruction, ALU_EXT true), a running machine whose byte at pc is
`op` executes the instruction `mk` makes of the bytes at pc+1 and pc+2, addresses modulo 256. -/
abbrev FetchedAs (op : Byte) (ext : Bool) (mk : Byte → Byte → Instr) : Prop :=
  ∀ s : State, s.status = .running → s.params.opcodes = .ls8 → (ext = true → s.params.aluExt = true) →
    s.memRead s.pc = op → step s = exec (mk (s.memRead (s.pc + 1)) (s.memRead (s.pc + 2))) s

/-- A register operand byte above 7 in byte 1 raises RegisterIndexFault, whatever the state (40_engine.md R72). -/
abbrev FaultsOnOpa (mk : Byte → Instr) : Prop :=
  ∀ (ra : Byte) (s : State), 7 < ra.toNat → exec (mk ra) s = .next (s.failedWith (.registerIndexFault ra s.pc))

/-- The same for byte 2, where byte 1 selects a register (40_engine.md R72). -/
abbrev FaultsOnOpb (mk : Byte → Byte → Instr) : Prop :=
  ∀ (a : Reg) (rb : Byte) (s : State), 7 < rb.toNat →
    exec (mk a.byte rb) s = .next (s.failedWith (.registerIndexFault rb s.pc))

/-- The instruction `mk` of two registers completes for all registers (an extension instruction: with ALU_EXT true): x[ra]
becomes `f x[ra] x[rb]`, both read before the write, pc advances by 3, and nothing else changes. -/
abbrev WritesAluResult (ext : Bool) (mk : Byte → Byte → Instr) (f : Nat → Nat → Nat) : Prop :=
  ∀ (a b : Reg) (s : State), (ext = true → s.params.aluExt = true) →
    ∃ t, exec (mk a.byte b.byte) s = .next t ∧ (t.reg a).toNat = f (s.reg a).toNat (s.reg b).toNat ∧
      SameRegsBut [a] s t ∧ t.pc = s.pc + 3 ∧ SameFlags s t ∧ SameMemory s t ∧ SameRest s t

end Sys2Proof.Machine

namespace Sys2Proof

/-- The registers an instruction names as its destination (10_state.md R18; 43_stack.md R94; 45_alu_extension.md section 2). -/
def Instr.destReg : Instr → Option Byte
  | .hlt | .push _ | .prn _ | .jmp _ | .jeq _ | .jne _ | .cmp _ _ => none
  | .pop ra | .ldi ra _ => some ra
  | .mul ra _ | .add ra _ | .sub ra _ | .and ra _ | .or ra _ | .xor ra _ | .shl ra _ | .shr ra _ => some ra

end Sys2Proof
end

