-- ==== Sys2Proof/Certificates/Slice0/Obligations.lean ====
section
/-! DEFINITION. The statements for the provers. Each is about every state and every operand unless it says otherwise; an
instruction's registers are written `a.byte`, the operand byte 0..7 of register `a`, and operand bytes above 7 have clauses of
their own. Opcode bytes are those of OPCODE_MAP's default (general knowledge of the spec, 92_eei_decisions.md D1);
RegisterIndexFault is the spec's decision D9. -/

open Sys2Proof Sys2Proof.Machine

/-! ### Reset and load -/

/-- 10_state.md R34, 70_reset_and_hazards.md R128 step 1, for every value of the parameters. The zeros are the spec's
decisions D5 to D8; x[7] is the OPEN parameter, 0xF4 in `State.reset` by notes/assumptions/1.md. -/
def Obligations.ResetState : Prop :=
  ∀ p : Params,
    (∀ r : Reg, r ≠ 7 → (State.resetWith p).reg r = 0) ∧ (State.resetWith p).reg 7 = p.spReset ∧
    (∀ k, (State.resetWith p).flag k = false) ∧ (State.resetWith p).pc = 0 ∧
    (∀ q, (State.resetWith p).memRead q = 0) ∧ (State.resetWith p).status = .running ∧ (State.resetWith p).out = [] ∧
    (State.resetWith p).params = p ∧ State.reset = State.resetWith defaultParams

/-- 20_memory.md R44, 70_reset_and_hazards.md R128, R129: loading puts byte n of the program at address n, leaves the rest of
the reset state as it was, and takes at most 256 bytes. -/
def Obligations.LoadPlacesProgram : Prop :=
  ∀ (p : Params) (program : List Byte),
    (program.length ≤ 256 → ∃ s, State.boot p program = some s ∧
      (∀ q : Byte, s.memRead q = if h : q.toNat < program.length then program[q.toNat] else 0) ∧
      { s with mem := (State.resetWith p).mem } = State.resetWith p) ∧
    (256 < program.length → State.boot p program = none)

/-! ### Encoding -/

/-- Words written out from 30_encoding.md R62 and the opcode bytes of R52 and 45_alu_extension.md R101. -/
def Obligations.DecodeWrittenWords : Prop :=
  decode .ls8 false ⟨0b10000010, 0x00, 0x08⟩ = .ok (.ldi 0 8) ∧ decode .ls8 false ⟨0b10100010, 0x00, 0x01⟩ = .ok (.mul 0 1) ∧
  decode .ls8 false ⟨0b01000111, 0x00, 0xFF⟩ = .ok (.prn 0) ∧ decode .ls8 false ⟨0b00000001, 0xFF, 0xFF⟩ = .ok .hlt ∧
  decode .ls8 false ⟨0b01010101, 0x02, 0x00⟩ = .ok (.jeq 2) ∧ decode .ls8 false ⟨0b01000101, 0x07, 0x00⟩ = .ok (.push 7) ∧
  decode .ls8 true ⟨0b10100001, 0x03, 0x04⟩ = .ok (.sub 3 4) ∧
  decode .ls8 false ⟨0b10100001, 0x03, 0x04⟩ = .illegalOpcode 0xA1 ∧ decode .ls8 true ⟨0xFF, 0, 0⟩ = .illegalOpcode 0xFF

/-- Decoding an encoded instruction gives it back, for every injective opcode map, every operand byte and whatever bytes
follow (30_encoding.md R52, R56, R57, R62). -/
def Obligations.DecodeOfEncode : Prop :=
  ∀ (m : OpcodeMap) (ext : Bool) (i : Instr) (rest : List Byte), m.wellFormed = true →
    (i.mnemonic.isExt = true → ext = true) → decode m ext (Window.ofBytes (encode m i ++ rest)) = .ok i

/-- The other direction: what decodes to an instruction is that instruction's encoding, and the bytes past its length are the
ones ignored (30_encoding.md R50, R51, R56). -/
def Obligations.EncodeOfDecode : Prop :=
  ∀ (m : OpcodeMap) (ext : Bool) (w : Window) (i : Instr), decode m ext w = .ok i →
    encode m i = [w.ir, w.opa, w.opb].take i.mnemonic.format.length ∧ (i.mnemonic.isExt = true → ext = true)

/-- 30_encoding.md R56: exactly the bytes outside the dispatch table are illegal, whatever follows them. -/
def Obligations.IllegalOpcodesExactly : Prop :=
  ∀ w : Window,
    (decode .ls8 false w = .illegalOpcode w.ir ↔
      w.ir ∉ ([0x01, 0x45, 0x46, 0x47, 0x54, 0x55, 0x56, 0x82, 0xA2, 0xA7] : List Byte)) ∧
    (decode .ls8 true w = .illegalOpcode w.ir ↔
      w.ir ∉ ([0x01, 0x45, 0x46, 0x47, 0x54, 0x55, 0x56, 0x82, 0xA2, 0xA7, 0xA0, 0xA1, 0xA8, 0xAA, 0xAB, 0xAC, 0xAD] :
        List Byte))

/-- 30_encoding.md R56: "With ALU_EXT false, 246 of the 256 byte values are illegal; with ALU_EXT true, 239 are". -/
def Obligations.IllegalOpcodeCounts : Prop :=
  ((List.range 256).filter fun n => dispatch .ls8 false (BitVec.ofNat 8 n) == none).length = 246 ∧
  ((List.range 256).filter fun n => dispatch .ls8 true (BitVec.ofNat 8 n) == none).length = 239

/-- 30_encoding.md R53 and 45_alu_extension.md R101: bits [7:6] of the opcode plus 1 are the length, bit 5 marks the ALU
instructions, bit 4 those that set pc. -/
def Obligations.OpcodeFieldsAgree : Prop :=
  ∀ k : Mnemonic,
    (OpcodeMap.ls8.opcode k).toNat / 64 + 1 = k.format.length ∧
    ((OpcodeMap.ls8.opcode k).getLsbD 5 = true ↔ k = .mul ∨ k = .cmp ∨ k.isExt = true) ∧
    ((OpcodeMap.ls8.opcode k).getLsbD 4 = true ↔ k = .jmp ∨ k = .jeq ∨ k = .jne)

/-- 30_encoding.md R54: operand byte b selects x[b], not masked, and a byte above 7 selects none. -/
def Obligations.OperandByteSelectsRegister : Prop :=
  ∀ b : Byte, (∀ r : Reg, regOf b = some r ↔ b.toNat = r.val) ∧ (regOf b = none ↔ 7 < b.toNat) ∧
    ∀ r : Reg, b = r.byte ↔ b.toNat = r.val

/-! ### The cycle -/

/-- 40_engine.md R69: the window is M[p], M[p+1], M[p+2], addresses modulo 256. -/
def Obligations.FetchReadsWindow : Prop :=
  ∀ s : State, (s.fetch.ir = s.mem.read s.pc.toNat) ∧ (s.fetch.opa = s.mem.read ((s.pc.toNat + 1) % 256)) ∧
    (s.fetch.opb = s.mem.read ((s.pc.toNat + 2) % 256))

/-- 40_engine.md R65, R73: a running machine's step executes the decoded instruction. R65 has the register check before Execute
and the pc update after it; that both stand inside exec, so that the step is exec with nothing around it, is the model's form
(notes/assumptions/15.md, DESIGN CHOICE). -/
def Obligations.StepRunsDecoded : Prop :=
  ∀ (s : State) (i : Instr), s.status = .running → s.decoded = .ok i → step s = exec i s

/-- 40_engine.md R64: a step is defined exactly when status is Running, and produces the next state. The second clause is R65
and R71: it is exec of the one decoded instruction (whole inside exec by the model's form, notes/assumptions/15.md), or, where
there is none, IllegalInstruction, with pc kept (the spec's decision D13, notes/assumptions/12.md). -/
def Obligations.StepDefinedIffRunning : Prop :=
  ∀ s : State, ((∃ t, step s = .next t) ↔ s.status = .running) ∧
    (s.status = .running →
      (∃ i, s.decoded = .ok i ∧ step s = exec i s) ∨
      (s.decoded = .illegalOpcode s.fetch.ir ∧ step s = .next (s.failedWith (.illegalInstruction s.fetch.ir s.pc))))

/-- 40_engine.md R68: "No step is defined from a terminal status", so no field changes again. -/
def Obligations.NoStepFromTerminal : Prop :=
  ∀ s t : State, s.status ≠ .running → step s ≠ .next t

/-- 40_engine.md R71, 60_exceptions.md R111: an opcode outside the table ends the run in Failed(IllegalInstruction, IR, p),
exit code 1, nothing else changed; so does an unwritten byte under the default map (70_reset_and_hazards.md R131). -/
def Obligations.IllegalInstructionTaken : Prop :=
  ∀ s : State, s.status = .running →
    (dispatch s.params.opcodes s.params.aluExt (s.memRead s.pc) = none →
      step s = .next (s.failedWith (.illegalInstruction (s.memRead s.pc) s.pc))) ∧
    (s.params.opcodes = .ls8 → s.memRead s.pc = 0 → step s = .next (s.failedWith (.illegalInstruction 0 s.pc))) ∧
    exitCode (s.failedWith (.illegalInstruction (s.memRead s.pc) s.pc)).status = some 1

/-- 40_engine.md R72, 60_exceptions.md R115: the first register byte above 7 in the order opa, opb is reported, before any
effect, for every instruction (spec decision D9). -/
def Obligations.RegisterIndexFaultTaken : Prop :=
  ∀ (i : Instr) (b : Byte) (s : State), i.firstBadReg = some b →
    exec i s = .next (s.failedWith (.registerIndexFault b s.pc))

/-- 40_engine.md R66, 60_exceptions.md R116: a step that raises a fault changes no field but status. -/
def Obligations.FaultChangesOnlyStatus : Prop :=
  ∀ (s t : State) (c : Cause), step s = .next t → t.status = .failed c → t = s.failedWith c

/-- 60_exceptions.md R111, R112: a running machine's step fails exactly where the opcode is not in the table or a register
operand byte is above 7; there is no other exception. -/
def Obligations.OnlyTwoFailures : Prop :=
  ∀ s t : State, s.status = .running → step s = .next t →
    (t.status.isSafe = false ↔
      s.decoded = .illegalOpcode (s.memRead s.pc) ∨ ∃ i, s.decoded = .ok i ∧ i.wellFormed = false)

/-- 41_alu.md R83, 45_alu_extension.md R100: no step ever raises UnsupportedOperation, ALU_EXT false or true. -/
def Obligations.UnsupportedOperationUnreachable : Prop :=
  ∀ (s t : State) (op : AluOp), step s = .next t → t.status ≠ .failed (.unsupportedOperation op)

/-- 41_alu.md R83, 45_alu_extension.md R100: the ALU's contract boundary. An operator outside the set is unsupported, and
where `unsupported` is driven neither `result` nor `eq` is; an instruction that passes one raises UnsupportedOperation(op) (no step reaches it, `UnsupportedOperationUnreachable`;
that exec then answers so is the model's reading, notes/assumptions/14.md). -/
def Obligations.AluContractBoundary : Prop :=
  (∀ (a b : Byte) (op : AluOp), (alu false op a b).unsupported = true ↔ op ≠ .add ∧ op ≠ .mul ∧ op ≠ .cmp) ∧
  (∀ (a b : Byte) (op : AluOp), (alu true op a b).unsupported = true ↔ ∃ n, op = .other n) ∧
  (∀ (ext : Bool) (op : AluOp) (a b : Byte), (alu ext op a b).unsupported = true →
    (alu ext op a b).result = none ∧ (alu ext op a b).eq = none) ∧
  (∀ (a b : Reg) (s : State), s.params.aluExt = false →
    exec (.sub a.byte b.byte) s = .next (s.failedWith (.unsupportedOperation .sub)) ∧
    exec (.and a.byte b.byte) s = .next (s.failedWith (.unsupportedOperation .and)) ∧
    exec (.or a.byte b.byte) s = .next (s.failedWith (.unsupportedOperation .or)) ∧
    exec (.xor a.byte b.byte) s = .next (s.failedWith (.unsupportedOperation .xor)) ∧
    exec (.shl a.byte b.byte) s = .next (s.failedWith (.unsupportedOperation .shl)) ∧
    exec (.shr a.byte b.byte) s = .next (s.failedWith (.unsupportedOperation .shr)))

/-- 10_state.md R28, 60_exceptions.md R111: the exit codes; that of the other two faults is the OPEN EXIT_OTHER_FAULT. -/
def Obligations.ExitCodes : Prop :=
  exitCode .running = none ∧ exitCode .halted = some 0 ∧
  (∀ ir p, exitCode (.failed (.illegalInstruction ir p)) = some 1) ∧
  (∀ op, exitCode (.failed (.unsupportedOperation op)) = some Config.exitOtherFault) ∧
  (∀ b p, exitCode (.failed (.registerIndexFault b p)) = some Config.exitOtherFault)

/-- 40_engine.md R70: in a running cycle with TRACE_ENABLE the trace port shows pc, the three fetched bytes and the 8
registers as they stand before the instruction; without it, nothing. -/
def Obligations.TracePortShowsCycle : Prop :=
  ∀ s : State, s.status = .running →
    (s.params.traceEnable = true → ∃ e, tracePort s = some e ∧ e.pc = s.pc ∧ e.window.ir = s.memRead s.pc ∧
      e.window.opa = s.memRead (s.pc + 1) ∧ e.window.opb = s.memRead (s.pc + 2) ∧ ∀ r : Reg, e.regs[r] = s.reg r) ∧
    (s.params.traceEnable = false → tracePort s = none)

/-! ### Whole-machine rules -/

/-- The data invariant is kept by every step: canonical memory, FL[0..6] false (10_state.md R26), an injective OPCODE_MAP. -/
def Obligations.StepKeepsCanonical : Prop :=
  ∀ s t : State, Canonical s → step s = .next t → Canonical t

/-- It holds after reset and load, for every injective OPCODE_MAP and every program that can be loaded. -/
def Obligations.BootIsCanonical : Prop :=
  (∀ (p : Params) (program : List Byte) (s : State), p.opcodes.wellFormed = true → State.boot p program = some s →
    Canonical s) ∧
  Canonical State.reset

/-- A terminal status names its own cause, and the cause still stands at pc (40_engine.md R71, R72, R76): every step keeps
this. -/
def Obligations.StepKeepsExplained : Prop :=
  ∀ s t : State, Explained s → step s = .next t → Explained t

/-- It holds at reset, whatever the parameters. -/
def Obligations.ResetIsExplained : Prop :=
  ∀ p : Params, Explained (State.resetWith p)

/-- 40_engine.md R67, 10_state.md R32: no step changes the parameters, so the same byte decodes to the same instruction at
every step. -/
def Obligations.DispatchTableFixed : Prop :=
  ∀ s t : State, step s = .next t →
    t.params = s.params ∧
    ∀ w, decode t.params.opcodes t.params.aluExt w = decode s.params.opcodes s.params.aluExt w

/-- 10_state.md R25, R26; 45_alu_extension.md R109: only CMP changes a flag, and only FL.E. -/
def Obligations.OnlyCmpChangesFlags : Prop :=
  ∀ s t : State, step s = .next t → (∀ k : Fin 8, k ≠ 7 → t.flag k = s.flag k) ∧
    (t.flagE ≠ s.flagE → ∃ a b : Reg, s.decoded = .ok (.cmp a.byte b.byte))

/-- 20_memory.md R35, 70_reset_and_hazards.md R129: only PUSH writes memory, and only the byte at x[7] after its decrement. -/
def Obligations.OnlyPushWritesMemory : Prop :=
  ∀ (s t : State) (q : Byte), step s = .next t → t.memRead q ≠ s.memRead q →
    q = s.pushAddr ∧ q = s.reg 7 - 1 ∧ ∃ a : Reg, s.decoded = .ok (.push a.byte)

/-- 10_state.md R29, 42_load_output.md R91: output grows only, by one byte, and only at a PRN. -/
def Obligations.OnlyPrnEmits : Prop :=
  ∀ s t : State, step s = .next t →
    t.out = s.out ∨ ∃ a : Reg, s.decoded = .ok (.prn a.byte) ∧ t.out = s.out ++ [s.reg a]

/-- 10_state.md R18, 43_stack.md R94: a register changes only if it is the instruction's destination, or it is SP and the
instruction is PUSH or POP. -/
def Obligations.RegisterWriters : Prop :=
  ∀ (s t : State) (r : Reg), step s = .next t → t.reg r ≠ s.reg r →
    ∃ i, s.decoded = .ok i ∧
      (i.destReg = some r.byte ∨ (r = 7 ∧ (i.mnemonic = .push ∨ i.mnemonic = .pop)))

/-- 10_state.md R22, 40_engine.md R74 (spec decisions D2, D13, notes/assumptions/12.md): pc changes by exactly one of: the
instruction's length, modulo 256, for every instruction but JMP, a taken JEQ and a taken JNE; a direct set to the register these
name; no change where the step ends the run. -/
def Obligations.PcUpdates : Prop :=
  ∀ s t : State, step s = .next t →
    (t.status = .running ∧ ∃ i, s.decoded = .ok i ∧
      ((t.pc = s.pc + BitVec.ofNat 8 i.mnemonic.format.length ∧ i.mnemonic ≠ .jmp ∧
          (i.mnemonic = .jeq → s.flagE = false) ∧ (i.mnemonic = .jne → s.flagE = true)) ∨
        ∃ a : Reg, (i = .jmp a.byte ∨ (i = .jeq a.byte ∧ s.flagE = true) ∨ (i = .jne a.byte ∧ s.flagE = false)) ∧
          t.pc = s.reg a)) ∨
    (t.status ≠ .running ∧ t.pc = s.pc ∧ (t.status = .halted ↔ s.decoded = .ok .hlt))

/-- 70_reset_and_hazards.md R135, 41_alu.md R87: under CMP_STICKY_EQ no step clears FL.E once it is set. -/
def Obligations.StickyFlagStays : Prop :=
  ∀ s t : State, s.params.cmpStickyEq = true → s.flagE = true → step s = .next t →
    t.flagE = true ∧ t.params.cmpStickyEq = true

/-- 40_engine.md R70: the trace "changes no state and has no effect on any other rule": setting TRACE_ENABLE either way
before a step gives the same next state but for that setting, and the same stop. -/
def Obligations.TraceChangesNothing : Prop :=
  ∀ (s : State) (b : Bool),
    (∀ t, step s = .next t → step (s.withTrace b) = .next (t.withTrace b)) ∧
    (∀ f, step s = .fault f → step (s.withTrace b) = .fault f)

/-- Memory's canonical form is canonical: two memories in it that read alike at every address are equal data
(the model's representation, notes/assumptions/9.md). -/
def Obligations.CanonicalMemoryUnique : Prop :=
  ∀ m n : Memory, m.wf = true → n.wf = true → (∀ a, m.read a = n.read a) → m = n

/-! ### The ALU -/

/-- 41_alu.md R82: "ADD and MUL return a value truncated to register width". -/
def Obligations.AluAddMulTruncate : Prop :=
  ∀ (ext : Bool) (a b : Byte),
    (∃ v, (alu ext .add a b).result = some v ∧ v.toNat = (a.toNat + b.toNat) % 256) ∧
    (∃ v, (alu ext .mul a b).result = some v ∧ v.toNat = a.toNat * b.toNat % 256)

/-- 41_alu.md R84: CMP drives no result; eq is equality of the two bytes bit for bit, and at the default CMP_STICKY_EQ the
flag is set on equality and cleared on inequality. -/
def Obligations.AluCmpEquality : Prop :=
  (∀ (ext : Bool) (a b : Byte), (alu ext .cmp a b).result = none ∧
    ∃ e, (alu ext .cmp a b).eq = some e ∧ (e = true ↔ ∀ i, i < 8 → a.getLsbD i = b.getLsbD i)) ∧
  (∀ (a b : Reg) (s : State), s.params.cmpStickyEq = false →
    ∃ t, exec (.cmp a.byte b.byte) s = .next t ∧ (s.reg a = s.reg b → t.flagE = true) ∧
      (s.reg a ≠ s.reg b → t.flagE = false))

/-- 41_alu.md R85, property S3 of 95_test_vectors.md: MUL a b and MUL b a leave the same product. -/
def Obligations.MulCommutes : Prop :=
  ∀ (a b : Reg) (s : State), ∃ t u, exec (.mul a.byte b.byte) s = .next t ∧ exec (.mul b.byte a.byte) s = .next u ∧
    t.reg a = u.reg b

/-! ### The instructions, in the table's order -/

/-- 44_control.md R99: HLT halts with exit code 0, pc stays (spec decision D13), nothing else changes. -/
def Obligations.HltHalts : Prop :=
  FetchedAs 0x01 false (fun _ _ => .hlt) ∧
  (∀ s : State, ∃ t, exec .hlt s = .next t ∧ t.status = .halted ∧ exitCode t.status = some 0 ∧ t.pc = s.pc ∧
    SameRegsBut [] s t ∧ SameFlags s t ∧ SameMemory s t ∧ t.out = s.out ∧ t.params = s.params)

/-- 43_stack.md R92 (spec decisions D3, D11): PUSH decrements SP modulo 256, then stores the register, read after the
decrement, at the new SP; only SP and that byte change. -/
def Obligations.PushStores : Prop :=
  FetchedAs 0x45 false (fun opa _ => .push opa) ∧
  (∀ (a : Reg) (s : State), ∃ t, exec (.push a.byte) s = .next t ∧
    s.pushAddr = s.reg 7 - 1 ∧ t.reg 7 = s.pushAddr ∧
    t.memRead s.pushAddr = (if a = 7 then s.reg 7 - 1 else s.reg a) ∧
    (∀ q, q ≠ s.pushAddr → t.memRead q = s.memRead q) ∧
    SameRegsBut [7] s t ∧ t.pc = s.pc + 2 ∧ SameFlags s t ∧ SameRest s t) ∧
  FaultsOnOpa (fun ra => .push ra)

/-- 43_stack.md R93 (spec decisions D3, D12): POP reads the byte at SP into the register, then increments SP modulo 256;
POP R7 leaves the byte plus 1; memory is not written. -/
def Obligations.PopLoads : Prop :=
  FetchedAs 0x46 false (fun opa _ => .pop opa) ∧
  (∀ (a : Reg) (s : State), ∃ t, exec (.pop a.byte) s = .next t ∧
    (a ≠ 7 → t.reg a = s.memRead (s.reg 7) ∧ t.reg 7 = s.reg 7 + 1) ∧
    (a = 7 → t.reg 7 = s.memRead (s.reg 7) + 1) ∧
    SameRegsBut [a, 7] s t ∧ t.pc = s.pc + 2 ∧ SameFlags s t ∧ SameMemory s t ∧ SameRest s t) ∧
  FaultsOnOpa (fun ra => .pop ra)

/-- 42_load_output.md R91 (spec decision D21): PRN appends the register to the output. -/
def Obligations.PrnEmits : Prop :=
  FetchedAs 0x47 false (fun opa _ => .prn opa) ∧
  (∀ (a : Reg) (s : State), ∃ t, exec (.prn a.byte) s = .next t ∧ t.out = s.out ++ [s.reg a] ∧ t.pc = s.pc + 2 ∧
    SameRegsBut [] s t ∧ SameFlags s t ∧ SameMemory s t ∧ t.status = s.status ∧ t.params = s.params) ∧
  FaultsOnOpa (fun ra => .prn ra)

/-- 44_control.md R96: JMP sets pc to the register, exactly. -/
def Obligations.JmpSetsPc : Prop :=
  FetchedAs 0x54 false (fun opa _ => .jmp opa) ∧
  (∀ (a : Reg) (s : State), ∃ t, exec (.jmp a.byte) s = .next t ∧ t.pc = s.reg a ∧
    SameRegsBut [] s t ∧ SameFlags s t ∧ SameMemory s t ∧ SameRest s t) ∧
  FaultsOnOpa (fun ra => .jmp ra)

/-- 44_control.md R97: JEQ jumps if FL.E, else pc +8 2; the register byte is checked either way (spec decision D9). -/
def Obligations.JeqJumpsIfEqual : Prop :=
  FetchedAs 0x55 false (fun opa _ => .jeq opa) ∧
  (∀ (a : Reg) (s : State), ∃ t, exec (.jeq a.byte) s = .next t ∧
    t.pc = (if s.flag 7 = true then s.reg a else s.pc + 2) ∧
    SameRegsBut [] s t ∧ SameFlags s t ∧ SameMemory s t ∧ SameRest s t) ∧
  FaultsOnOpa (fun ra => .jeq ra)

/-- 44_control.md R98: JNE jumps if not FL.E, else pc +8 2; the register byte is checked either way (spec decision D9). -/
def Obligations.JneJumpsIfNotEqual : Prop :=
  FetchedAs 0x56 false (fun opa _ => .jne opa) ∧
  (∀ (a : Reg) (s : State), ∃ t, exec (.jne a.byte) s = .next t ∧
    t.pc = (if s.flag 7 = true then s.pc + 2 else s.reg a) ∧
    SameRegsBut [] s t ∧ SameFlags s t ∧ SameMemory s t ∧ SameRest s t) ∧
  FaultsOnOpa (fun ra => .jne ra)

/-- 42_load_output.md R90: LDI stores byte 2 unchanged; every immediate is legal. The opcode byte is 30_encoding.md R52 (spec
decision D1, notes/assumptions/3.md, 16.md); the clause for a register byte above 7 is 40_engine.md R72 (spec decision D9,
notes/assumptions/12.md). -/
def Obligations.LdiLoads : Prop :=
  FetchedAs 0x82 false (fun opa opb => .ldi opa opb) ∧
  (∀ (a : Reg) (imm : Byte) (s : State), ∃ t, exec (.ldi a.byte imm) s = .next t ∧ t.reg a = imm ∧
    SameRegsBut [a] s t ∧ t.pc = s.pc + 3 ∧ SameFlags s t ∧ SameMemory s t ∧ SameRest s t) ∧
  (∀ imm : Byte, FaultsOnOpa (fun ra => .ldi ra imm))

/-- 41_alu.md R86: MUL stores the product modulo 256 and writes no flag. The opcode byte is 30_encoding.md R52 (spec decision
D1, notes/assumptions/3.md, 16.md); the clauses for register bytes above 7 are 40_engine.md R72 (spec decisions D9 and D26,
notes/assumptions/12.md). -/
def Obligations.MulMultiplies : Prop :=
  FetchedAs 0xA2 false .mul ∧ WritesAluResult false .mul (fun x y => x * y % 256) ∧
  (∀ rb : Byte, FaultsOnOpa (fun ra => .mul ra rb)) ∧ FaultsOnOpb .mul

/-- 41_alu.md R87: CMP writes FL.E only, clearing it on inequality unless CMP_STICKY_EQ keeps it (spec decision D16). -/
def Obligations.CmpSetsEqualFlag : Prop :=
  FetchedAs 0xA7 false .cmp ∧
  (∀ (a b : Reg) (s : State), ∃ t, exec (.cmp a.byte b.byte) s = .next t ∧
    (s.reg a = s.reg b → t.flag 7 = true) ∧
    (s.reg a ≠ s.reg b → t.flag 7 = (if s.params.cmpStickyEq = true then s.flag 7 else false)) ∧
    (∀ k : Fin 8, k ≠ 7 → t.flag k = s.flag k) ∧
    SameRegsBut [] s t ∧ t.pc = s.pc + 3 ∧ SameMemory s t ∧ SameRest s t) ∧
  (∀ rb : Byte, FaultsOnOpa (fun ra => .cmp ra rb)) ∧ FaultsOnOpb .cmp

/-- 45_alu_extension.md R102 (ALU_EXT). -/
def Obligations.AddAdds : Prop :=
  FetchedAs 0xA0 true .add ∧ WritesAluResult true .add (fun x y => (x + y) % 256) ∧
  (∀ rb : Byte, FaultsOnOpa (fun ra => .add ra rb)) ∧ FaultsOnOpb .add

/-- 45_alu_extension.md R103 (ALU_EXT): modulo 256, so that 5 - 10 = 251. -/
def Obligations.SubSubtracts : Prop :=
  FetchedAs 0xA1 true .sub ∧ WritesAluResult true .sub (fun x y => (x + 256 - y) % 256) ∧
  (∀ rb : Byte, FaultsOnOpa (fun ra => .sub ra rb)) ∧ FaultsOnOpb .sub

/-- 45_alu_extension.md R104 (ALU_EXT). -/
def Obligations.AndConjoins : Prop :=
  FetchedAs 0xA8 true .and ∧ WritesAluResult true .and (fun x y => x &&& y) ∧
  (∀ rb : Byte, FaultsOnOpa (fun ra => .and ra rb)) ∧ FaultsOnOpb .and

/-- 45_alu_extension.md R105 (ALU_EXT). -/
def Obligations.OrDisjoins : Prop :=
  FetchedAs 0xAA true .or ∧ WritesAluResult true .or (fun x y => x ||| y) ∧
  (∀ rb : Byte, FaultsOnOpa (fun ra => .or ra rb)) ∧ FaultsOnOpb .or

/-- 45_alu_extension.md R106 (ALU_EXT). -/
def Obligations.XorDiffers : Prop :=
  FetchedAs 0xAB true .xor ∧ WritesAluResult true .xor (fun x y => x ^^^ y) ∧
  (∀ rb : Byte, FaultsOnOpa (fun ra => .xor ra rb)) ∧ FaultsOnOpb .xor

/-- 45_alu_extension.md R107 (ALU_EXT; spec decision D25): the amount is the whole byte, so 8 or more gives 0. -/
def Obligations.ShlShifts : Prop :=
  FetchedAs 0xAC true .shl ∧ WritesAluResult true .shl (fun x n => x * 2 ^ n % 256) ∧
  (∀ rb : Byte, FaultsOnOpa (fun ra => .shl ra rb)) ∧ FaultsOnOpb .shl

/-- 45_alu_extension.md R108 (ALU_EXT; spec decision D25): logical, the amount is the whole byte. -/
def Obligations.ShrShifts : Prop :=
  FetchedAs 0xAD true .shr ∧ WritesAluResult true .shr (fun x n => x / 2 ^ n) ∧
  (∀ rb : Byte, FaultsOnOpa (fun ra => .shr ra rb)) ∧ FaultsOnOpb .shr

/-! ### Sequences -/

/-- 43_stack.md R95: PUSH a then POP b. With b not R7 the pushed byte is in b, SP is back, and every other register is as it
was; PUSH R7, POP R7 brings SP back; with b = R7 and a not R7, SP is the pushed value plus 1. -/
def Obligations.PushThenPop : Prop :=
  ∀ (a b : Reg) (s : State), ∃ t u, exec (.push a.byte) s = .next t ∧ exec (.pop b.byte) t = .next u ∧
    (b ≠ 7 → u.reg b = (if a = 7 then s.reg 7 - 1 else s.reg a) ∧ u.reg 7 = s.reg 7 ∧
      ∀ r, r ≠ b → u.reg r = s.reg r) ∧
    (b = 7 → a = 7 → ∀ r, u.reg r = s.reg r) ∧
    (b = 7 → a ≠ 7 → u.reg 7 = s.reg a + 1 ∧ ∀ r, r ≠ 7 → u.reg r = s.reg r)

/-- 20_memory.md R48, 70_reset_and_hazards.md R134, 40_engine.md R69: a byte a PUSH stores is what every fetch after it reads
there: all three bytes of the next window (the next opcode and its two operand bytes), and every address a later window may
take in. The PUSH itself runs as latched, also where it overwrites its own bytes. `v` is the byte pushed (43_stack.md R92). -/
def Obligations.PushSeenByNextFetch : Prop :=
  ∀ (a : Reg) (s : State), s.status = .running → s.decoded = .ok (.push a.byte) →
    ∃ t v, step s = .next t ∧ t.status = .running ∧ t.pc = s.pc + 2 ∧ v = (if a = 7 then s.reg 7 - 1 else s.reg a) ∧
      t.fetch.ir = (if s.pc + 2 = s.pushAddr then v else s.memRead (s.pc + 2)) ∧
      t.fetch.opa = (if s.pc + 3 = s.pushAddr then v else s.memRead (s.pc + 3)) ∧
      t.fetch.opb = (if s.pc + 4 = s.pushAddr then v else s.memRead (s.pc + 4)) ∧
      ∀ q, t.memRead q = (if q = s.pushAddr then v else s.memRead q)

/-! ### What the model's own form adds to a rule -/

/-- 40_engine.md R68, "no further fetch, no further output": in a terminal status the trace port shows nothing
(notes/assumptions/7.md), and the model's total step answers the fault `terminated` (notes/assumptions/6.md, DEDUCED). -/
def Obligations.TerminalStepStops : Prop :=
  ∀ s : State, s.status ≠ .running → step s = .fault .terminated ∧ tracePort s = none

/-- 41_alu.md R82's last sentence, which the spec marks as derived from R81 and 30_encoding.md R52: the dispatch table has no
ADD with ALU_EXT false, under any opcode map and for any bytes (R56). -/
def Obligations.NoNormativeAdd : Prop :=
  ∀ (m : OpcodeMap) (w : Window) (ra rb : Byte), decode m false w ≠ .ok (.add ra rb)
end

