-- ==== Sys2Proof/Laws/State.lean ====
section
/-! SUPPORT. One lemma per field per update of State, true by rfl, and what each accessor reads after each update. -/

namespace Sys2Proof.Machine

variable (s : State)

@[simp] theorem State.setReg_regs (r : Reg) (v : Byte) : (s.setReg r v).regs = s.regs.set r v := rfl
@[simp] theorem State.setReg_fl (r : Reg) (v : Byte) : (s.setReg r v).fl = s.fl := rfl
@[simp] theorem State.setReg_pc (r : Reg) (v : Byte) : (s.setReg r v).pc = s.pc := rfl
@[simp] theorem State.setReg_mem (r : Reg) (v : Byte) : (s.setReg r v).mem = s.mem := rfl
@[simp] theorem State.setReg_status (r : Reg) (v : Byte) : (s.setReg r v).status = s.status := rfl
@[simp] theorem State.setReg_out (r : Reg) (v : Byte) : (s.setReg r v).out = s.out := rfl
@[simp] theorem State.setReg_params (r : Reg) (v : Byte) : (s.setReg r v).params = s.params := rfl
@[simp] theorem State.setReg_memRead (r : Reg) (v : Byte) (b : Byte) : (s.setReg r v).memRead b = s.memRead b := rfl
@[simp] theorem State.setReg_flag (r : Reg) (v : Byte) (k : Fin 8) : (s.setReg r v).flag k = s.flag k := rfl
@[simp] theorem State.setReg_flagE (r : Reg) (v : Byte) : (s.setReg r v).flagE = s.flagE := rfl

@[simp] theorem State.memWrite_regs (a v : Byte) : (s.memWrite a v).regs = s.regs := rfl
@[simp] theorem State.memWrite_fl (a v : Byte) : (s.memWrite a v).fl = s.fl := rfl
@[simp] theorem State.memWrite_pc (a v : Byte) : (s.memWrite a v).pc = s.pc := rfl
@[simp] theorem State.memWrite_mem (a v : Byte) : (s.memWrite a v).mem = s.mem.write a.toNat v := rfl
@[simp] theorem State.memWrite_status (a v : Byte) : (s.memWrite a v).status = s.status := rfl
@[simp] theorem State.memWrite_out (a v : Byte) : (s.memWrite a v).out = s.out := rfl
@[simp] theorem State.memWrite_params (a v : Byte) : (s.memWrite a v).params = s.params := rfl
@[simp] theorem State.memWrite_reg (a v : Byte) (q : Reg) : (s.memWrite a v).reg q = s.reg q := rfl
@[simp] theorem State.memWrite_flag (a v : Byte) (k : Fin 8) : (s.memWrite a v).flag k = s.flag k := rfl
@[simp] theorem State.memWrite_flagE (a v : Byte) : (s.memWrite a v).flagE = s.flagE := rfl

@[simp] theorem State.emit_regs (v : Byte) : (s.emit v).regs = s.regs := rfl
@[simp] theorem State.emit_fl (v : Byte) : (s.emit v).fl = s.fl := rfl
@[simp] theorem State.emit_pc (v : Byte) : (s.emit v).pc = s.pc := rfl
@[simp] theorem State.emit_mem (v : Byte) : (s.emit v).mem = s.mem := rfl
@[simp] theorem State.emit_status (v : Byte) : (s.emit v).status = s.status := rfl
@[simp] theorem State.emit_out (v : Byte) : (s.emit v).out = s.out ++ [v] := rfl
@[simp] theorem State.emit_params (v : Byte) : (s.emit v).params = s.params := rfl
@[simp] theorem State.emit_reg (v : Byte) (q : Reg) : (s.emit v).reg q = s.reg q := rfl
@[simp] theorem State.emit_memRead (v : Byte) (b : Byte) : (s.emit v).memRead b = s.memRead b := rfl
@[simp] theorem State.emit_flag (v : Byte) (k : Fin 8) : (s.emit v).flag k = s.flag k := rfl
@[simp] theorem State.emit_flagE (v : Byte) : (s.emit v).flagE = s.flagE := rfl

@[simp] theorem State.setPc_regs (v : Byte) : (s.setPc v).regs = s.regs := rfl
@[simp] theorem State.setPc_fl (v : Byte) : (s.setPc v).fl = s.fl := rfl
@[simp] theorem State.setPc_pc (v : Byte) : (s.setPc v).pc = v := rfl
@[simp] theorem State.setPc_mem (v : Byte) : (s.setPc v).mem = s.mem := rfl
@[simp] theorem State.setPc_status (v : Byte) : (s.setPc v).status = s.status := rfl
@[simp] theorem State.setPc_out (v : Byte) : (s.setPc v).out = s.out := rfl
@[simp] theorem State.setPc_params (v : Byte) : (s.setPc v).params = s.params := rfl
@[simp] theorem State.setPc_reg (v : Byte) (q : Reg) : (s.setPc v).reg q = s.reg q := rfl
@[simp] theorem State.setPc_memRead (v : Byte) (b : Byte) : (s.setPc v).memRead b = s.memRead b := rfl
@[simp] theorem State.setPc_flag (v : Byte) (k : Fin 8) : (s.setPc v).flag k = s.flag k := rfl
@[simp] theorem State.setPc_flagE (v : Byte) : (s.setPc v).flagE = s.flagE := rfl

@[simp] theorem State.advance_regs (n : Byte) : (s.advance n).regs = s.regs := rfl
@[simp] theorem State.advance_fl (n : Byte) : (s.advance n).fl = s.fl := rfl
@[simp] theorem State.advance_pc (n : Byte) : (s.advance n).pc = s.pc + n := rfl
@[simp] theorem State.advance_mem (n : Byte) : (s.advance n).mem = s.mem := rfl
@[simp] theorem State.advance_status (n : Byte) : (s.advance n).status = s.status := rfl
@[simp] theorem State.advance_out (n : Byte) : (s.advance n).out = s.out := rfl
@[simp] theorem State.advance_params (n : Byte) : (s.advance n).params = s.params := rfl
@[simp] theorem State.advance_reg (n : Byte) (q : Reg) : (s.advance n).reg q = s.reg q := rfl
@[simp] theorem State.advance_memRead (n : Byte) (b : Byte) : (s.advance n).memRead b = s.memRead b := rfl
@[simp] theorem State.advance_flag (n : Byte) (k : Fin 8) : (s.advance n).flag k = s.flag k := rfl
@[simp] theorem State.advance_flagE (n : Byte) : (s.advance n).flagE = s.flagE := rfl

@[simp] theorem State.setStatus_regs (st : Status) : (s.setStatus st).regs = s.regs := rfl
@[simp] theorem State.setStatus_fl (st : Status) : (s.setStatus st).fl = s.fl := rfl
@[simp] theorem State.setStatus_pc (st : Status) : (s.setStatus st).pc = s.pc := rfl
@[simp] theorem State.setStatus_mem (st : Status) : (s.setStatus st).mem = s.mem := rfl
@[simp] theorem State.setStatus_status (st : Status) : (s.setStatus st).status = st := rfl
@[simp] theorem State.setStatus_out (st : Status) : (s.setStatus st).out = s.out := rfl
@[simp] theorem State.setStatus_params (st : Status) : (s.setStatus st).params = s.params := rfl
@[simp] theorem State.setStatus_reg (st : Status) (q : Reg) : (s.setStatus st).reg q = s.reg q := rfl
@[simp] theorem State.setStatus_memRead (st : Status) (b : Byte) : (s.setStatus st).memRead b = s.memRead b := rfl
@[simp] theorem State.setStatus_flag (st : Status) (k : Fin 8) : (s.setStatus st).flag k = s.flag k := rfl
@[simp] theorem State.setStatus_flagE (st : Status) : (s.setStatus st).flagE = s.flagE := rfl

@[simp] theorem State.setFlagE_regs (e : Bool) : (s.setFlagE e).regs = s.regs := rfl
@[simp] theorem State.setFlagE_fl (e : Bool) : (s.setFlagE e).fl = s.fl.set 7 e := rfl
@[simp] theorem State.setFlagE_pc (e : Bool) : (s.setFlagE e).pc = s.pc := rfl
@[simp] theorem State.setFlagE_mem (e : Bool) : (s.setFlagE e).mem = s.mem := rfl
@[simp] theorem State.setFlagE_status (e : Bool) : (s.setFlagE e).status = s.status := rfl
@[simp] theorem State.setFlagE_out (e : Bool) : (s.setFlagE e).out = s.out := rfl
@[simp] theorem State.setFlagE_params (e : Bool) : (s.setFlagE e).params = s.params := rfl
@[simp] theorem State.setFlagE_reg (e : Bool) (q : Reg) : (s.setFlagE e).reg q = s.reg q := rfl
@[simp] theorem State.setFlagE_memRead (e : Bool) (b : Byte) : (s.setFlagE e).memRead b = s.memRead b := rfl

/-- A register reads as written, every other register as before. -/
@[simp] theorem State.setReg_reg (r : Reg) (v : Byte) (q : Reg) : (s.setReg r v).reg q = if q = r then v else s.reg q := by
  simp [State.setReg, State.reg, Vector.getElem_set, Fin.ext_iff, eq_comm]

/-- FL.E reads as written, every other flag cell as before. -/
@[simp] theorem State.setFlagE_flag (e : Bool) (k : Fin 8) : (s.setFlagE e).flag k = if k = 7 then e else s.flag k := by
  simp [State.setFlagE, State.flag, Vector.getElem_set, Fin.ext_iff, eq_comm]

@[simp] theorem State.setFlagE_flagE (e : Bool) : (s.setFlagE e).flagE = e := by simp [State.flagE]

/-- Equal register files are those that read alike. -/
theorem regs_eq_of_reg {s t : State} (h : ∀ r, t.reg r = s.reg r) : t.regs = s.regs :=
  Vector.ext fun i hi => h ⟨i, hi⟩

/-- Equal flag registers are those that read alike. -/
theorem fl_eq_of_flag {s t : State} (h : ∀ k, t.flag k = s.flag k) : t.fl = s.fl :=
  Vector.ext fun i hi => h ⟨i, hi⟩

end Sys2Proof.Machine
end

