-- ==== Sys2Proof/Laws/Operands.lean ====
section
/-! SUPPORT. What the register-operand check can do (40_engine.md R72). -/

namespace Sys2Proof.Machine

theorem Reg.byte_toNat (r : Reg) : r.byte.toNat = r.val := by
  have := r.isLt
  simp [Reg.byte]; omega

@[simp] theorem regOf_byte (r : Reg) : regOf r.byte = some r := by
  have := r.isLt
  simp [regOf, Reg.byte_toNat]

theorem regOf_bad {b : Byte} (h : 7 < b.toNat) : regOf b = none := by simp [regOf]; omega

/-- A byte is the operand byte of a register, or it is above 7. -/
theorem byte_cases (b : Byte) : (∃ r : Reg, b = r.byte) ∨ 7 < b.toNat := by
  by_cases h : b.toNat < 8
  · exact .inl ⟨⟨b.toNat, h⟩, by apply BitVec.eq_of_toNat_eq; rw [Reg.byte_toNat]⟩
  · exact .inr (by omega)

theorem Reg.byte_le (r : Reg) : r.byte.toNat ≤ 7 := by rw [Reg.byte_toNat]; omega

@[simp] theorem withReg_byte (r : Reg) (s : State) (k : Reg → Host.Outcome State Fault Refusal) :
    withReg r.byte s k = k r := by simp [withReg]

theorem withReg_bad {b : Byte} (h : 7 < b.toNat) (s : State) (k : Reg → Host.Outcome State Fault Refusal) :
    withReg b s k = raise (.registerIndexFault b s.pc) s := by simp [withReg, regOf_bad h]

@[simp] theorem withRegs_byte (a b : Reg) (s : State) (k : Reg → Reg → Host.Outcome State Fault Refusal) :
    withRegs a.byte b.byte s k = k a b := by simp [withRegs]

theorem withRegs_bad_left {ra : Byte} (h : 7 < ra.toNat) (rb : Byte) (s : State)
    (k : Reg → Reg → Host.Outcome State Fault Refusal) :
    withRegs ra rb s k = raise (.registerIndexFault ra s.pc) s := by simp [withRegs, withReg_bad h]

theorem withRegs_bad_right (a : Reg) {rb : Byte} (h : 7 < rb.toNat) (s : State)
    (k : Reg → Reg → Host.Outcome State Fault Refusal) :
    withRegs a.byte rb s k = raise (.registerIndexFault rb s.pc) s := by simp [withRegs, withReg_bad h]

@[simp] theorem regByteOk_byte (r : Reg) : regByteOk r.byte = true := by simp [regByteOk, Reg.byte_le]

theorem regByteOk_bad {b : Byte} (h : 7 < b.toNat) : regByteOk b = false := by simp [regByteOk]; omega

end Sys2Proof.Machine
end

