-- ==== Sys2Proof/Laws/Alu.lean ====
section
/-! SUPPORT. What an ALU instruction can do (41_alu.md R81 to R87, 45_alu_extension.md). -/

namespace Sys2Proof.Machine

theorem alu_supported {ext : Bool} {op : AluOp} (h : op.supported ext = true) (a b : Byte) :
    alu ext op a b = ⟨op.value a b, op.eqPort a b, false⟩ := by simp [alu, h]

theorem alu_unsupported {ext : Bool} {op : AluOp} (h : op.supported ext = false) (a b : Byte) :
    alu ext op a b = ⟨none, none, true⟩ := by simp [alu, h]

/-- Only the register file, FL.E and pc can differ after the write back, and each as its port says. -/
@[simp] theorem State.writeResult_some (s : State) (r : Reg) (v : Byte) : s.writeResult r (some v) = s.setReg r v := rfl
@[simp] theorem State.writeResult_none (s : State) (r : Reg) : s.writeResult r none = s := rfl
@[simp] theorem State.writeEq_some (s : State) (e : Bool) :
    s.writeEq (some e) = s.setFlagE (cmpFlag s.params.cmpStickyEq s.flagE e) := rfl
@[simp] theorem State.writeEq_none (s : State) : s.writeEq none = s := rfl

/-- The write back leaves pc, memory, status, output and parameters alone, and FL[0] to FL[6]. -/
@[simp] theorem State.writeBack_pc (s : State) (r : Reg) (o e) : ((s.writeResult r o).writeEq e).pc = s.pc := by
  cases o <;> cases e <;> rfl
@[simp] theorem State.writeBack_mem (s : State) (r : Reg) (o e) : ((s.writeResult r o).writeEq e).mem = s.mem := by
  cases o <;> cases e <;> rfl
@[simp] theorem State.writeBack_status (s : State) (r : Reg) (o e) :
    ((s.writeResult r o).writeEq e).status = s.status := by cases o <;> cases e <;> rfl
@[simp] theorem State.writeBack_out (s : State) (r : Reg) (o e) : ((s.writeResult r o).writeEq e).out = s.out := by
  cases o <;> cases e <;> rfl
@[simp] theorem State.writeBack_params (s : State) (r : Reg) (o e) :
    ((s.writeResult r o).writeEq e).params = s.params := by cases o <;> cases e <;> rfl
theorem State.writeBack_flag (s : State) (r : Reg) (o e) {k : Fin 8} (hk : k ≠ 7) :
    ((s.writeResult r o).writeEq e).flag k = s.flag k := by cases o <;> cases e <;> simp [hk]

/-- An ALU instruction with both register bytes in range and its operator in the set completes. -/
theorem execAlu_supported {op : AluOp} {s : State} (h : op.supported s.params.aluExt = true) (a b : Reg) :
    execAlu op a.byte b.byte s =
      .next (((s.writeResult a (op.value (s.reg a) (s.reg b))).writeEq (op.eqPort (s.reg a) (s.reg b))).advance 3) := by
  simp [execAlu, alu_supported h]

/-- With its operator outside the set it raises UnsupportedOperation. -/
theorem execAlu_unsupported {op : AluOp} {s : State} (h : op.supported s.params.aluExt = false) (a b : Reg) :
    execAlu op a.byte b.byte s = raise (.unsupportedOperation op) s := by
  simp [execAlu, alu_unsupported h]

/-- With a register byte above 7 it raises RegisterIndexFault, opa before opb. -/
theorem execAlu_bad_left {ra : Byte} (h : 7 < ra.toNat) (op : AluOp) (rb : Byte) (s : State) :
    execAlu op ra rb s = raise (.registerIndexFault ra s.pc) s := withRegs_bad_left h ..
theorem execAlu_bad_right (a : Reg) {rb : Byte} (h : 7 < rb.toNat) (op : AluOp) (s : State) :
    execAlu op a.byte rb s = raise (.registerIndexFault rb s.pc) s := withRegs_bad_right a h ..

end Sys2Proof.Machine
end

