-- ==== Sys2Proof/Laws/Decode.lean ====
section
/-! SUPPORT. The dispatch table as a relation, and what decoding can answer. -/

namespace Sys2Proof

theorem Mnemonic.mem_all (k : Mnemonic) : k ∈ Mnemonic.all := by cases k <;> decide

/-- A mnemonic that dispatch answers has the opcode looked up, and is one the machine has. -/
theorem dispatch_some {m : OpcodeMap} {ext : Bool} {ir : Byte} {k : Mnemonic} (h : dispatch m ext ir = some k) :
    m.opcode k = ir ∧ (ext || !k.isExt) = true := by
  have := List.find?_some h
  simpa using this

/-- Dispatch answers none exactly where no mnemonic the machine has carries the byte. -/
theorem dispatch_none {m : OpcodeMap} {ext : Bool} {ir : Byte} :
    dispatch m ext ir = none ↔ ∀ k : Mnemonic, (ext || !k.isExt) = true → m.opcode k ≠ ir := by
  simp only [dispatch, List.find?_eq_none, Mnemonic.mem_all, forall_const, Bool.and_eq_true, beq_iff_eq, not_and]
  exact ⟨fun h k he hk => h k hk he, fun h k hk he => h k he hk⟩

/-- An opcode map without a repeated byte is injective. -/
theorem OpcodeMap.opcode_injective {m : OpcodeMap} (h : m.wellFormed = true) {k l : Mnemonic}
    (e : m.opcode k = m.opcode l) : k = l :=
  List.inj_on_of_nodup_map (of_decide_eq_true h) (Mnemonic.mem_all k) (Mnemonic.mem_all l) e

/-- In an injective map, dispatch on a mnemonic's opcode answers that mnemonic. -/
theorem dispatch_opcode {m : OpcodeMap} (h : m.wellFormed = true) {ext : Bool} {k : Mnemonic}
    (hk : (ext || !k.isExt) = true) : dispatch m ext (m.opcode k) = some k := by
  cases hd : dispatch m ext (m.opcode k) with
  | none => exact absurd rfl (dispatch_none.mp hd k hk)
  | some l => rw [OpcodeMap.opcode_injective h (dispatch_some hd).1]

@[simp] theorem Mnemonic.assemble_mnemonic (k : Mnemonic) (a b : Byte) : (k.assemble a b).mnemonic = k := by cases k <;> rfl

/-- Decoding answers the assembled instruction of the dispatched mnemonic, or the illegal opcode byte. -/
theorem decode_cases (m : OpcodeMap) (ext : Bool) (w : Window) :
    (∃ k, dispatch m ext w.ir = some k ∧ decode m ext w = .ok (k.assemble w.opa w.opb)) ∨
      (dispatch m ext w.ir = none ∧ decode m ext w = .illegalOpcode w.ir) := by
  unfold decode
  cases dispatch m ext w.ir with
  | none => exact .inr ⟨rfl, rfl⟩
  | some k => exact .inl ⟨k, rfl, rfl⟩

/-- A decoded instruction's mnemonic has the window's opcode byte, and is one the machine has. -/
theorem decode_ok_mnemonic {m : OpcodeMap} {ext : Bool} {w : Window} {i : Instr} (h : decode m ext w = .ok i) :
    m.opcode i.mnemonic = w.ir ∧ (ext || !i.mnemonic.isExt) = true ∧ i = i.mnemonic.assemble w.opa w.opb := by
  rcases decode_cases m ext w with ⟨k, hk, hd⟩ | ⟨-, hd⟩
  · rw [hd] at h
    cases h
    simpa using dispatch_some hk
  · rw [hd] at h; cases h

end Sys2Proof
end

