-- ==== Sys2Proof/Laws/Step.lean ====
section
/-! SUPPORT. What a step can do, once; and that a placed window is fetched. -/

namespace Sys2Proof.Machine

@[simp] theorem raise_eq (c : Cause) (s : State) : raise c s = .next (s.setStatus (.failed c)) := rfl

/-- A step runs the decoded instruction, raises IllegalInstruction, or is not defined. -/
theorem step_cases (s : State) :
    (s.status = .running ∧ ∃ i, decode s.params.opcodes s.params.aluExt s.fetch = .ok i ∧ step s = exec i s) ∨
      (s.status = .running ∧ ∃ ir, decode s.params.opcodes s.params.aluExt s.fetch = .illegalOpcode ir ∧
        step s = raise (.illegalInstruction ir s.pc) s) ∨
      (s.status ≠ .running ∧ step s = .fault .terminated) := by
  unfold step
  cases hs : s.status with
  | running =>
    cases hd : decode s.params.opcodes s.params.aluExt s.fetch with
    | ok i => exact .inl ⟨rfl, i, rfl, rfl⟩
    | illegalOpcode ir => exact .inr (.inl ⟨rfl, ir, rfl, rfl⟩)
  | halted => exact .inr (.inr ⟨by simp, rfl⟩)
  | failed c => exact .inr (.inr ⟨by simp, rfl⟩)

/-- The next step after a window is placed fetches that window. -/
theorem placeWindow_fetch (s : State) (w : Window) : (s.placeWindow w).fetch = w := by
  have h1 : s.pc ≠ s.pc + 1 := by simp
  have h2 : s.pc ≠ s.pc + 2 := by simp
  have h3 : s.pc + 1 ≠ s.pc + 2 := by simp
  have hr : ∀ b, (s.placeWindow w).memRead b =
      (((s.memWrite s.pc w.ir).memWrite (s.pc + 1) w.opa).memWrite (s.pc + 2) w.opb).memRead b := fun _ => rfl
  have hp : (s.placeWindow w).pc = s.pc := rfl
  simp [State.fetch, hr, hp]

end Sys2Proof.Machine
end

