-- ==== Sys2Proof/Laws/Exec.lean ====
section
/-! SUPPORT. What exec can answer, said once: `ExecCase` lists every way an instruction ends. -/

namespace Sys2Proof.Machine

/-- An instruction that is one ALU operation, and which. -/
inductive AluInstr : Instr → AluOp → Byte → Byte → Prop where
  | mul (ra rb) : AluInstr (.mul ra rb) .mul ra rb
  | cmp (ra rb) : AluInstr (.cmp ra rb) .cmp ra rb
  | add (ra rb) : AluInstr (.add ra rb) .add ra rb
  | sub (ra rb) : AluInstr (.sub ra rb) .sub ra rb
  | and (ra rb) : AluInstr (.and ra rb) .and ra rb
  | or (ra rb) : AluInstr (.or ra rb) .or ra rb
  | xor (ra rb) : AluInstr (.xor ra rb) .xor ra rb
  | shl (ra rb) : AluInstr (.shl ra rb) .shl ra rb
  | shr (ra rb) : AluInstr (.shr ra rb) .shr ra rb

/-- The ways an instruction run in `s` can end in `t`. -/
inductive ExecCase (s : State) : Instr → State → Prop where
  | badReg (i b) (h : i.firstBadReg = some b) : ExecCase s i (s.setStatus (.failed (.registerIndexFault b s.pc)))
  | unsupported (i op ra rb) (h : AluInstr i op ra rb) (hu : op.supported s.params.aluExt = false) :
    ExecCase s i (s.setStatus (.failed (.unsupportedOperation op)))
  | alu (i op) (a b : Reg) (h : AluInstr i op a.byte b.byte) (hs : op.supported s.params.aluExt = true) :
    ExecCase s i
      (((s.writeResult a (op.value (s.reg a) (s.reg b))).writeEq (op.eqPort (s.reg a) (s.reg b))).advance 3)
  | hlt : ExecCase s .hlt (s.setStatus .halted)
  | push (a : Reg) : ExecCase s (.push a.byte)
      (((s.setReg spReg s.pushAddr).memWrite s.pushAddr ((s.setReg spReg s.pushAddr).reg a)).advance 2)
  | pop (a : Reg) : ExecCase s (.pop a.byte)
      (((s.setReg a (s.memRead (s.reg spReg))).setReg spReg
        ((s.setReg a (s.memRead (s.reg spReg))).reg spReg + 1)).advance 2)
  | prn (a : Reg) : ExecCase s (.prn a.byte) ((s.emit (s.reg a)).advance 2)
  | jump (i) (a : Reg)
    (h : i = .jmp a.byte ∨ (i = .jeq a.byte ∧ s.flagE = true) ∨ (i = .jne a.byte ∧ s.flagE = false)) :
    ExecCase s i (s.setPc (s.reg a))
  | fall (i) (a : Reg) (h : (i = .jeq a.byte ∧ s.flagE = false) ∨ (i = .jne a.byte ∧ s.flagE = true)) :
    ExecCase s i (s.advance 2)
  | ldi (a : Reg) (imm) : ExecCase s (.ldi a.byte imm) ((s.setReg a imm).advance 3)

theorem firstBadReg_left {i : Instr} {x : Byte} {l : List Byte} (hl : i.regOperands = x :: l) (h : 7 < x.toNat) :
    i.firstBadReg = some x := by simp [Instr.firstBadReg, hl, regByteOk_bad h]

theorem firstBadReg_right {i : Instr} {a : Reg} {y : Byte} (hl : i.regOperands = [a.byte, y]) (h : 7 < y.toNat) :
    i.firstBadReg = some y := by simp [Instr.firstBadReg, hl, regByteOk_bad h]

/-- Every ALU instruction ends in one of its cases. -/
theorem execAlu_case {i : Instr} {op : AluOp} {ra rb : Byte} (hi : AluInstr i op ra rb) (s : State) :
    ∃ t, execAlu op ra rb s = .next t ∧ ExecCase s i t := by
  have hl : i.regOperands = [ra, rb] := by cases hi <;> rfl
  rcases byte_cases ra with ⟨a, rfl⟩ | h
  · rcases byte_cases rb with ⟨b, rfl⟩ | h
    · cases hs : op.supported s.params.aluExt with
      | true => exact ⟨_, execAlu_supported hs a b, .alu i op a b hi hs⟩
      | false => exact ⟨_, execAlu_unsupported hs a b, .unsupported i op _ _ hi hs⟩
    · exact ⟨_, execAlu_bad_right a h op s, .badReg i rb (firstBadReg_right hl h)⟩
  · exact ⟨_, execAlu_bad_left h op rb s, .badReg i ra (firstBadReg_left hl h)⟩

/-- An instruction with one register operand ends as its continuation does, or in RegisterIndexFault. -/
theorem withReg_case {i : Instr} {ra : Byte} {l : List Byte} (hl : i.regOperands = ra :: l) (s : State)
    (k : Reg → State) (hk : ∀ a : Reg, ra = a.byte → ExecCase s i (k a)) :
    ∃ t, withReg ra s (fun a => .next (k a)) = .next t ∧ ExecCase s i t := by
  rcases byte_cases ra with ⟨a, rfl⟩ | h
  · exact ⟨k a, withReg_byte .., hk a rfl⟩
  · exact ⟨_, withReg_bad h .., .badReg i ra (firstBadReg_left hl h)⟩

/-- A jump that is taken sets pc to its register, one that is not falls through, and either checks the register first. -/
theorem jumpIf_case {i : Instr} {ra : Byte} (taken : Bool) (s : State) (hl : i.regOperands = [ra])
    (ht : ∀ a : Reg, ra = a.byte → taken = true → ExecCase s i (s.setPc (s.reg a)))
    (hf : ∀ a : Reg, ra = a.byte → taken = false → ExecCase s i (s.advance 2)) :
    ∃ t, jumpIf taken ra s = .next t ∧ ExecCase s i t := by
  refine withReg_case hl s (fun a => if taken then s.setPc (s.reg a) else s.advance 2) fun a ha => ?_
  cases taken with
  | true => exact ht a ha rfl
  | false => exact hf a ha rfl

/-- exec always answers a next state, and in one of the listed ways. -/
theorem exec_case (i : Instr) (s : State) : ∃ t, exec i s = .next t ∧ ExecCase s i t := by
  cases i with
  | hlt => exact ⟨_, rfl, .hlt⟩
  | push ra => exact withReg_case rfl s _ (by rintro a rfl; exact .push a)
  | pop ra => exact withReg_case rfl s _ (by rintro a rfl; exact .pop a)
  | prn ra => exact withReg_case rfl s _ (by rintro a rfl; exact .prn a)
  | jmp ra => exact jumpIf_case true s rfl (by rintro a rfl _; exact .jump _ a (.inl rfl)) (by rintro a _ h; cases h)
  | jeq ra =>
    exact jumpIf_case _ s rfl (by rintro a rfl h; exact .jump _ a (.inr (.inl ⟨rfl, h⟩)))
      (by rintro a rfl h; exact .fall _ a (.inl ⟨rfl, h⟩))
  | jne ra =>
    exact jumpIf_case _ s rfl (by rintro a rfl h; exact .jump _ a (.inr (.inr ⟨rfl, by simpa using h⟩)))
      (by rintro a rfl h; exact .fall _ a (.inr ⟨rfl, by simpa using h⟩))
  | ldi ra imm => exact withReg_case rfl s _ (by rintro a rfl; exact .ldi a imm)
  | mul ra rb => exact execAlu_case (.mul ra rb) s
  | cmp ra rb => exact execAlu_case (.cmp ra rb) s
  | add ra rb => exact execAlu_case (.add ra rb) s
  | sub ra rb => exact execAlu_case (.sub ra rb) s
  | and ra rb => exact execAlu_case (.and ra rb) s
  | or ra rb => exact execAlu_case (.or ra rb) s
  | xor ra rb => exact execAlu_case (.xor ra rb) s
  | shl ra rb => exact execAlu_case (.shl ra rb) s
  | shr ra rb => exact execAlu_case (.shr ra rb) s

/-- The inversion of exec. -/
theorem exec_inv {i : Instr} {s t : State} (h : exec i s = .next t) : ExecCase s i t := by
  obtain ⟨u, hu, hc⟩ := exec_case i s
  rw [h] at hu
  cases hu
  exact hc

/-- An instruction the machine decoded passes the ALU an operator it has. -/
theorem supported_of_decoded {i : Instr} {op : AluOp} {ra rb : Byte} (hi : AluInstr i op ra rb) {ext : Bool}
    (h : (ext || !i.mnemonic.isExt) = true) : op.supported ext = true := by
  cases hi <;> first | rfl | (simp only [Instr.mnemonic, Mnemonic.isExt, Bool.not_true, Bool.or_false] at h; exact h)

/-- The inversion of step: it ran the decoded instruction, which passed the ALU only operators the machine has, or it took
IllegalInstruction. -/
theorem step_inv {s t : State} (h : step s = .next t) :
    s.status = .running ∧
      ((∃ i, decode s.params.opcodes s.params.aluExt s.fetch = .ok i ∧ exec i s = .next t ∧ ExecCase s i t ∧
          ∀ op ra rb, AluInstr i op ra rb → op.supported s.params.aluExt = true) ∨
        (decode s.params.opcodes s.params.aluExt s.fetch = .illegalOpcode (s.memRead s.pc) ∧
          t = s.setStatus (.failed (.illegalInstruction (s.memRead s.pc) s.pc)))) := by
  rcases step_cases s with ⟨hr, i, hd, hs⟩ | ⟨hr, ir, hd, hs⟩ | ⟨hr, hs⟩
  · rw [hs] at h
    exact ⟨hr, .inl ⟨i, hd, h, exec_inv h, fun op ra rb hi => supported_of_decoded hi (decode_ok_mnemonic hd).2.1⟩⟩
  · rw [hs] at h
    rcases decode_cases s.params.opcodes s.params.aluExt s.fetch with ⟨k, -, hd'⟩ | ⟨-, hd'⟩
    · rw [hd] at hd'; cases hd'
    · rw [hd] at hd'; cases hd'
      cases h
      exact ⟨hr, .inr ⟨hd, rfl⟩⟩
  · rw [hs] at h; cases h

end Sys2Proof.Machine
end

