-- ==== Sys2Proof/Laws/PerInstr.lean ====
section
/-! SUPPORT. Statements about every instruction as syntax, one lemma per constructor. -/

namespace Sys2Proof.Laws.EncodeShape

/-- An instruction's encoding is as long as its format says, starts with its opcode, and goes on with the register operand
bytes the format defines (30_encoding.md R50, R51, R62). -/
def Statement (i : Instr) : Prop :=
  ∀ m : OpcodeMap, (encode m i).length = i.mnemonic.format.length ∧ (encode m i).head? = some (m.opcode i.mnemonic) ∧
    i.regOperands <+: i.operandBytes

theorem hlt : Statement .hlt := fun _ => ⟨rfl, rfl, by simp [Instr.regOperands, Instr.operandBytes]⟩
theorem push (a : Byte) : Statement (.push a) := fun _ => ⟨rfl, rfl, by simp [Instr.regOperands, Instr.operandBytes]⟩
theorem pop (a : Byte) : Statement (.pop a) := fun _ => ⟨rfl, rfl, by simp [Instr.regOperands, Instr.operandBytes]⟩
theorem prn (a : Byte) : Statement (.prn a) := fun _ => ⟨rfl, rfl, by simp [Instr.regOperands, Instr.operandBytes]⟩
theorem jmp (a : Byte) : Statement (.jmp a) := fun _ => ⟨rfl, rfl, by simp [Instr.regOperands, Instr.operandBytes]⟩
theorem jeq (a : Byte) : Statement (.jeq a) := fun _ => ⟨rfl, rfl, by simp [Instr.regOperands, Instr.operandBytes]⟩
theorem jne (a : Byte) : Statement (.jne a) := fun _ => ⟨rfl, rfl, by simp [Instr.regOperands, Instr.operandBytes]⟩
theorem ldi (a b : Byte) : Statement (.ldi a b) := fun _ => ⟨rfl, rfl, by simp [Instr.regOperands, Instr.operandBytes]⟩
theorem mul (a b : Byte) : Statement (.mul a b) := fun _ => ⟨rfl, rfl, by simp [Instr.regOperands, Instr.operandBytes]⟩
theorem cmp (a b : Byte) : Statement (.cmp a b) := fun _ => ⟨rfl, rfl, by simp [Instr.regOperands, Instr.operandBytes]⟩
theorem add (a b : Byte) : Statement (.add a b) := fun _ => ⟨rfl, rfl, by simp [Instr.regOperands, Instr.operandBytes]⟩
theorem sub (a b : Byte) : Statement (.sub a b) := fun _ => ⟨rfl, rfl, by simp [Instr.regOperands, Instr.operandBytes]⟩
theorem and (a b : Byte) : Statement (.and a b) := fun _ => ⟨rfl, rfl, by simp [Instr.regOperands, Instr.operandBytes]⟩
theorem or (a b : Byte) : Statement (.or a b) := fun _ => ⟨rfl, rfl, by simp [Instr.regOperands, Instr.operandBytes]⟩
theorem xor (a b : Byte) : Statement (.xor a b) := fun _ => ⟨rfl, rfl, by simp [Instr.regOperands, Instr.operandBytes]⟩
theorem shl (a b : Byte) : Statement (.shl a b) := fun _ => ⟨rfl, rfl, by simp [Instr.regOperands, Instr.operandBytes]⟩
theorem shr (a b : Byte) : Statement (.shr a b) := fun _ => ⟨rfl, rfl, by simp [Instr.regOperands, Instr.operandBytes]⟩

end Sys2Proof.Laws.EncodeShape
end

