-- ==== Sys2Proof/Machine/Text.lean ====
section
/-! DEFINITION. The written forms of an instruction: assembler notation (30_encoding.md R59) and the lines of a program file
(R60). No step reads them. -/

namespace Sys2Proof.Machine

/-- The mnemonic as the spec writes it (30_encoding.md R52, 45_alu_extension.md R101). -/
def Mnemonic.text : Mnemonic → String
  | .hlt => "HLT" | .push => "PUSH" | .pop => "POP" | .prn => "PRN" | .jmp => "JMP" | .jeq => "JEQ" | .jne => "JNE"
  | .ldi => "LDI" | .mul => "MUL" | .cmp => "CMP" | .add => "ADD" | .sub => "SUB" | .and => "AND" | .or => "OR"
  | .xor => "XOR" | .shl => "SHL" | .shr => "SHR"

/-- A byte in decimal. -/
def decimal (b : Byte) : String := toString b.toNat

/-- A register operand, `R0` to `R7` (30_encoding.md R59). -/
def regText (b : Byte) : String := "R" ++ decimal b

/-- The operands in the order of the formats, registers as `Rn` and the immediate in decimal (30_encoding.md R59). -/
def operandTexts : Instr → List String
  | .hlt => []
  | .push ra | .pop ra | .prn ra | .jmp ra | .jeq ra | .jne ra => [regText ra]
  | .ldi ra imm => [regText ra, decimal imm]
  | .mul ra rb | .cmp ra rb | .add ra rb | .sub ra rb | .and ra rb | .or ra rb | .xor ra rb | .shl ra rb | .shr ra rb =>
    [regText ra, regText rb]

/-- An instruction in assembler notation: the mnemonic followed by its operands separated by spaces (30_encoding.md R59). -/
def asmText (i : Instr) : String := " ".intercalate (Mnemonic.text i.mnemonic :: operandTexts i)

/-- Bit `k` of a byte as a binary digit. -/
def bitText (b : Byte) (k : Nat) : String := if b.getLsbD k then "1" else "0"

/-- One line of the program file: a byte as an 8-character binary literal, most significant bit first (30_encoding.md R60,
00_scope.md R8). -/
def byteLine (b : Byte) : String := String.join ([7, 6, 5, 4, 3, 2, 1, 0].map (bitText b))

/-- The program-file lines of an instruction, one byte a line (30_encoding.md R60). -/
def programLines (m : OpcodeMap) (i : Instr) : List String := (encode m i).map byteLine

end Sys2Proof.Machine
end

