-- ==== Sys2Proof/Tests/Slice0.lean ====
section
/-! SUPPORT. The model's own tests. Expected results are those of 95_test_vectors.md (the vector's id stands in the comment) or
are computed by hand from the rule cited. The `witness_` theorems show that the hypotheses of the statements can be met. -/

namespace Sys2Proof.Tests

open Sys2Proof.Machine

/-! ### Helpers -/

/-- Parameters with the two behaviour switches; everything else at its default. -/
def params (ext sticky : Bool) : Params := { defaultParams with aluExt := ext, cmpStickyEq := sticky }

/-- The base state of 95_test_vectors.md section 0 (pc 0x10, SP 0xF4) with the instruction bytes at pc. -/
def base (bytes : List Byte) (p : Params := defaultParams) : State :=
  { State.resetWith p with pc := 0x10, mem := Memory.writeList [] 0x10 bytes }

/-- The outcome is a next state of which `p` holds. -/
def after (o : Host.Outcome State Fault Refusal) (p : State → Bool) : Bool :=
  match o with
  | .next t => p t
  | .fault _ => false
  | .refused _ => false

/-- The outcome is Failed with this cause, pc and registers as before. -/
def failsWith (s : State) (c : Cause) : Bool :=
  after (step s) fun t => t.status == .failed c && t.pc == s.pc && t.regs == s.regs && t.out == s.out

/-! ### WellFormed: one ill-formed term per check -/

theorem test_wf_ok : (Instr.mul 7 0).wellFormed = true := by decide
theorem test_wf_opa_one_register : (Instr.push 8).wellFormed = false := by decide
theorem test_wf_opa_two_registers : (Instr.cmp 8 0).wellFormed = false := by decide
theorem test_wf_opb_two_registers : (Instr.shr 0 8).wellFormed = false := by decide
theorem test_wf_opa_immediate : (Instr.ldi 255 0).wellFormed = false := by decide
theorem test_wf_immediate_unchecked : (Instr.ldi 0 255).wellFormed = true := by decide
theorem test_wf_hlt : Instr.hlt.wellFormed = true := by decide
theorem test_wf_opcode_map : OpcodeMap.ls8.wellFormed = true := by decide
theorem test_wf_opcode_map_repeated : ({ OpcodeMap.ls8 with shr := 0x01 } : OpcodeMap).wellFormed = false := by decide
theorem test_memory_wf_rising : Memory.wf [(3, 1), (2, 1)] = false := by decide
theorem test_memory_wf_zero_listed : Memory.wf [(3, 0)] = false := by decide
theorem test_memory_wf_range : Memory.wf [(256, 1)] = false := by decide

/-! ### Decode: every constructor from a word written out from 30_encoding.md R51, R52 and 45_alu_extension.md R101 -/

theorem test_decode_hlt : decode .ls8 false ⟨0b00000001, 0xFF, 0xFF⟩ = .ok .hlt := by decide
theorem test_decode_push : decode .ls8 false ⟨0b01000101, 0x03, 0xFF⟩ = .ok (.push 3) := by decide
theorem test_decode_pop : decode .ls8 false ⟨0b01000110, 0x01, 0xFF⟩ = .ok (.pop 1) := by decide
theorem test_decode_prn : decode .ls8 false ⟨0b01000111, 0x00, 0xFF⟩ = .ok (.prn 0) := by decide
theorem test_decode_jmp : decode .ls8 false ⟨0b01010100, 0x02, 0xFF⟩ = .ok (.jmp 2) := by decide
theorem test_decode_jeq : decode .ls8 false ⟨0b01010101, 0x02, 0xFF⟩ = .ok (.jeq 2) := by decide
theorem test_decode_jne : decode .ls8 false ⟨0b01010110, 0x03, 0xFF⟩ = .ok (.jne 3) := by decide
theorem test_decode_ldi : decode .ls8 false ⟨0b10000010, 0x00, 0x08⟩ = .ok (.ldi 0 8) := by decide
theorem test_decode_mul : decode .ls8 false ⟨0b10100010, 0x00, 0x01⟩ = .ok (.mul 0 1) := by decide
theorem test_decode_cmp : decode .ls8 false ⟨0b10100111, 0x04, 0x05⟩ = .ok (.cmp 4 5) := by decide
theorem test_decode_add : decode .ls8 true ⟨0b10100000, 0x00, 0x01⟩ = .ok (.add 0 1) := by decide
theorem test_decode_sub : decode .ls8 true ⟨0b10100001, 0x00, 0x01⟩ = .ok (.sub 0 1) := by decide
theorem test_decode_and : decode .ls8 true ⟨0b10101000, 0x00, 0x01⟩ = .ok (.and 0 1) := by decide
theorem test_decode_or : decode .ls8 true ⟨0b10101010, 0x00, 0x01⟩ = .ok (.or 0 1) := by decide
theorem test_decode_xor : decode .ls8 true ⟨0b10101011, 0x00, 0x01⟩ = .ok (.xor 0 1) := by decide
theorem test_decode_shl : decode .ls8 true ⟨0b10101100, 0x00, 0x01⟩ = .ok (.shl 0 1) := by decide
theorem test_decode_shr : decode .ls8 true ⟨0b10101101, 0x06, 0x07⟩ = .ok (.shr 6 7) := by decide
theorem test_decode_unassigned : decode .ls8 true ⟨0b11111111, 0, 0⟩ = .illegalOpcode 0xFF := by decide
theorem test_decode_unwritten : decode .ls8 true ⟨0, 0, 0⟩ = .illegalOpcode 0 := by decide
/-- Encodings of 30_encoding.md R62. -/
theorem test_encode_examples : encode .ls8 (.ldi 0 8) = [0x82, 0x00, 0x08] ∧ encode .ls8 (.mul 0 1) = [0xA2, 0x00, 0x01] ∧
    encode .ls8 (.prn 0) = [0x47, 0x00] ∧ encode .ls8 .hlt = [0x01] ∧ encode .ls8 (.jeq 2) = [0x55, 0x02] := by decide
/-- 30_encoding.md R59 and R60. -/
theorem test_asm_ldi : asmText (.ldi 0 8) = "LDI R0 8" ∧
    programLines .ls8 (.ldi 0 8) = ["10000010", "00000000", "00001000"] := by decide
theorem test_table_word : decodeTableWord 8 0x82 = some (.ldi 0 0) ∧ decodeTableWord 24 0x0801A2 = some (.mul 1 8) ∧
    decodeTableWord 8 0x1FF = none := by decide
/-- A table word runs as the first instruction after reset, an extension word too. -/
theorem test_fetch_word_hlt : after (step (State.reset.withFetchWord 8 0x01)) (fun t => t.status == .halted) = true := by
  decide
theorem test_fetch_word_add :
    after (step (State.reset.withFetchWord 24 0x0007A0)) (fun t => t.reg 7 == 0xF4 && t.pc == 3 && t.status == .running) = true := by
  decide
theorem test_fetch_word_push : after (step (State.reset.withFetchWord 16 0x0045)) (fun t => t.reg 7 == 0xF3) = true := by decide

/-! ### Reset and load -/

/-- 10_state.md R34, 70_reset_and_hazards.md R128. -/
theorem test_reset : State.reset.pc = 0 ∧ State.reset.reg 3 = 0 ∧ State.reset.flagE = false ∧ State.reset.status = .running ∧
    State.reset.memRead 0xFF = 0 := by decide
/-- P1 of 95_test_vectors.md: loading places the bytes from address 0; the first step is LDI R0 8. -/
theorem test_boot : (State.boot defaultParams [0x82, 0x00, 0x08, 0x01]).map
    (fun s => after (step s) fun t => t.reg 0 == 8 && t.pc == 3) = some true := by decide

/-! ### The cycle -/

/-- ENG-1 and ENG-3: the illegal opcode is reported, not the bad register bytes. -/
theorem test_illegal_opcode : failsWith (base [0xFF, 9, 9]) (.illegalInstruction 0xFF 0x10) = true := by decide
/-- ENG-2. -/
theorem test_illegal_unwritten : failsWith (base []) (.illegalInstruction 0 0x10) = true := by decide
/-- ENG-4: opa first. -/
theorem test_register_fault_opa : failsWith (base [0xA2, 0x09, 0x0C]) (.registerIndexFault 9 0x10) = true := by decide
/-- ENG-5. -/
theorem test_register_fault_opb : failsWith (base [0xA2, 0x03, 0x08]) (.registerIndexFault 8 0x10) = true := by decide
/-- ENG-7: checked although the jump would not be taken. -/
theorem test_register_fault_not_taken : failsWith (base [0x55, 0x08]) (.registerIndexFault 8 0x10) = true := by decide
/-- ENG-14. -/
theorem test_extension_off : failsWith (base [0xA0, 0, 1]) (.illegalInstruction 0xA0 0x10) = true := by decide
/-- EXT-15. -/
theorem test_extension_register_fault : failsWith (base [0xAD, 0x0A, 1] (params true false)) (.registerIndexFault 10 0x10) = true := by
  decide
/-- ENG-12: the window and the increment wrap. -/
theorem test_fetch_wraps :
    after (step { base [] with pc := 0xFE, mem := Memory.writeList (Memory.writeList [] 0xFE [0x82, 0x01]) 0 [0x2A] })
      (fun t => t.reg 1 == 0x2A && t.pc == 1) = true := by decide
/-- 40_engine.md R68. -/
theorem test_no_step_when_halted : step { base [1] with status := .halted } = .fault .terminated := rfl
/-- ENG-15: what the trace port shows. -/
theorem test_trace_port :
    tracePort ((base [0x47, 0] { defaultParams with traceEnable := true }).setReg 0 0x2A) =
      some ⟨0x10, ⟨0x47, 0, 0⟩, #v[0x2A, 0, 0, 0, 0, 0, 0, 0xF4]⟩ := by decide
theorem test_exit_codes : exitCode .halted = some 0 ∧ exitCode (.failed (.illegalInstruction 0xFF 0)) = some 1 := by decide

/-! ### The instructions -/

/-- HLT-2: the trailing bytes are not executed. -/
theorem test_hlt : after (step ((base [0x01, 0x47, 0]).emit 3)) (fun t => t.status == .halted && t.pc == 0x10 && t.out == [3]) = true := by
  decide
/-- ENG-6. -/
theorem test_hlt_trailing_unchecked : after (step (base [0x01, 0xFF, 0xFF])) (fun t => t.status == .halted) = true := by decide
/-- STK-3: SP wraps downward. -/
theorem test_push_wraps : after (step (((base [0x45, 0]).setReg 7 0).setReg 0 9))
    (fun t => t.reg 7 == 0xFF && t.memRead 0xFF == 9 && t.pc == 0x12) = true := by decide
/-- STK-6: PUSH R7 stores the decremented SP. -/
theorem test_push_sp : after (step (base [0x45, 7])) (fun t => t.reg 7 == 0xF3 && t.memRead 0xF3 == 0xF3) = true := by decide
/-- STK-4: SP wraps upward. -/
theorem test_pop_wraps : after (step (((base [0x46, 2]).setReg 7 0xFF).memWrite 0xFF 9))
    (fun t => t.reg 2 == 9 && t.reg 7 == 0 && t.memRead 0xFF == 9 && t.pc == 0x12) = true := by decide
/-- STK-8: POP R7 leaves the popped byte plus 1. -/
theorem test_pop_sp : after (step (((base [0x46, 7]).setReg 7 0xF3).memWrite 0xF3 0x2A)) (fun t => t.reg 7 == 0x2B) = true := by
  decide
/-- PRN-4: output is appended in order. -/
theorem test_prn_order : after (step (((base [0x47, 1]).emit 1).setReg 1 2)) (fun t => t.out == [1, 2] && t.pc == 0x12) = true := by
  decide
/-- PRN-3. -/
theorem test_prn_sp : after (step (base [0x47, 7])) (fun t => t.out == [0xF4]) = true := by decide
/-- JMP-1, JMP-2. -/
theorem test_jmp : after (step ((base [0x54, 2]).setReg 2 0x40)) (fun t => t.pc == 0x40) = true := by decide
theorem test_jmp_sp : after (step (base [0x54, 7])) (fun t => t.pc == 0xF4) = true := by decide
/-- JEQ-1, JEQ-2. -/
theorem test_jeq_taken : after (step (((base [0x55, 2]).setReg 2 0x40).setFlagE true)) (fun t => t.pc == 0x40 && t.flagE) = true := by
  decide
theorem test_jeq_not_taken : after (step ((base [0x55, 2]).setReg 2 0x40)) (fun t => t.pc == 0x12) = true := by decide
/-- JNE-1, JNE-2. -/
theorem test_jne_not_taken : after (step (((base [0x56, 3]).setReg 3 0x40).setFlagE true)) (fun t => t.pc == 0x12) = true := by
  decide
theorem test_jne_taken : after (step ((base [0x56, 3]).setReg 3 0x40)) (fun t => t.pc == 0x40) = true := by decide
/-- LDI-3, LDI-4. -/
theorem test_ldi : after (step ((base [0x82, 6, 0xFF]).setReg 6 1)) (fun t => t.reg 6 == 0xFF && t.pc == 0x13) = true := by decide
theorem test_ldi_sp : after (step (base [0x82, 7, 0x20])) (fun t => t.reg 7 == 0x20) = true := by decide
/-- MUL-1, MUL-8. -/
theorem test_mul_wraps : after (step (((base [0xA2, 0, 1]).setReg 0 20).setReg 1 13))
    (fun t => t.reg 0 == 4 && t.reg 1 == 13 && t.pc == 0x13) = true := by decide
theorem test_mul_sp : after (step ((base [0xA2, 7, 1]).setReg 1 2)) (fun t => t.reg 7 == 0xE8) = true := by decide
/-- CMP-2: cleared on inequality. CMP-6: kept under CMP_STICKY_EQ. -/
theorem test_cmp_clears : after (step ((((base [0xA7, 0, 1]).setReg 0 5).setReg 1 6).setFlagE true)) (fun t => !t.flagE) = true := by
  decide
theorem test_cmp_sticky : after (step ((((base [0xA7, 0, 1] (params false true)).setReg 0 5).setReg 1 6).setFlagE true))
    (fun t => t.flagE && t.pc == 0x13) = true := by decide
/-- EXT-2. -/
theorem test_add_wraps : after (step (((base [0xA0, 0, 1] (params true false)).setReg 0 255).setReg 1 1))
    (fun t => t.reg 0 == 0 && t.pc == 0x13 && !t.flagE) = true := by decide
/-- EXT-4, EXT-14. -/
theorem test_sub_wraps : after (step ((base [0xA1, 0, 1] (params true false)).setReg 1 1)) (fun t => t.reg 0 == 255 && !t.flagE) = true := by
  decide
theorem test_sub_sp : after (step ((base [0xA1, 7, 1] (params true false)).setReg 1 1)) (fun t => t.reg 7 == 0xF3) = true := by
  decide
/-- EXT-6, EXT-7, EXT-8. -/
theorem test_and : after (step (((base [0xA8, 0, 1] (params true false)).setReg 0 0xF0).setReg 1 0x3C)) (fun t => t.reg 0 == 0x30) = true := by
  decide
theorem test_or : after (step (((base [0xAA, 0, 1] (params true false)).setReg 0 0xF0).setReg 1 0x3C)) (fun t => t.reg 0 == 0xFC) = true := by
  decide
theorem test_xor : after (step (((base [0xAB, 0, 1] (params true false)).setReg 0 0xF0).setReg 1 0x3C)) (fun t => t.reg 0 == 0xCC) = true := by
  decide
/-- EXT-9, EXT-10. -/
theorem test_shl : after (step (((base [0xAC, 0, 1] (params true false)).setReg 0 0x81).setReg 1 1)) (fun t => t.reg 0 == 2) = true := by
  decide
theorem test_shl_by_eight : after (step (((base [0xAC, 0, 1] (params true false)).setReg 0 5).setReg 1 8)) (fun t => t.reg 0 == 0) = true := by
  decide
/-- EXT-11, EXT-13. -/
theorem test_shr : after (step (((base [0xAD, 0, 1] (params true false)).setReg 0 0x80).setReg 1 7)) (fun t => t.reg 0 == 1) = true := by
  decide
theorem test_shr_by_200 : after (step (((base [0xAD, 0, 1] (params true false)).setReg 0 0x80).setReg 1 200)) (fun t => t.reg 0 == 0) = true := by
  decide

/-! ### Witnesses: for every statement with hypotheses, a state and operands that meet them together -/

theorem witness_LoadPlacesProgram : (List.replicate 256 (1 : Byte)).length ≤ 256 ∧ 256 < (List.replicate 257 (1 : Byte)).length := by
  rw [List.length_replicate, List.length_replicate]; omega
theorem witness_DecodeOfEncode : OpcodeMap.ls8.wellFormed = true ∧ ((Instr.sub 3 4).mnemonic.isExt = true → true = true) ∧
    ((Instr.mul 3 4).mnemonic.isExt = true → false = true) := by decide
theorem witness_EncodeOfDecode : decode .ls8 false ⟨0x47, 0x02, 0x99⟩ = .ok (.prn 2) := by decide
theorem witness_StepRunsDecoded : (base [0xA2, 0, 1]).status = .running ∧ (base [0xA2, 0, 1]).decoded = .ok (.mul 0 1) := by decide
theorem witness_StepDefinedIffRunning : (base [1]).status = .running ∧ (base [1]).decoded = .ok .hlt ∧
    (base []).decoded = .illegalOpcode 0 := by decide
theorem witness_NoStepFromTerminal : ((base [1]).setStatus .halted).status ≠ .running := by decide
theorem witness_TerminalStepStops :
    ((base [1]).setStatus (.failed (.illegalInstruction 0xFF 0x10))).status ≠ .running := by decide
theorem witness_IllegalInstructionTaken : (base [0xFF]).status = .running ∧
    dispatch (base [0xFF]).params.opcodes (base [0xFF]).params.aluExt ((base [0xFF]).memRead (base [0xFF]).pc) = none ∧
    (base []).params.opcodes = .ls8 ∧ (base []).memRead (base []).pc = 0 := by decide
theorem witness_RegisterIndexFaultTaken : (Instr.jeq 8).firstBadReg = some 8 ∧ (Instr.mul 7 8).firstBadReg = some 8 ∧
    (Instr.mul 255 8).firstBadReg = some 255 := by decide
theorem witness_FaultChangesOnlyStatus : ∃ t, step (base [0x47, 8]) = .next t ∧
    t.status = .failed (.registerIndexFault 8 0x10) := ⟨_, rfl, rfl⟩
theorem witness_OnlyTwoFailures : (base [0x47, 0]).status = .running ∧ (∃ t, step (base [0x47, 0]) = .next t) ∧
    (base [0x47, 8]).status = .running ∧ ∃ t, step (base [0x47, 8]) = .next t := ⟨rfl, ⟨_, rfl⟩, rfl, ⟨_, rfl⟩⟩
theorem witness_UnsupportedOperationUnreachable : ∃ t, step (base [0xA1, 0, 1] (params true false)) = .next t := ⟨_, rfl⟩
theorem witness_AluContractBoundary : (base []).params.aluExt = false ∧ (alu false .sub 1 2).unsupported = true ∧
    (alu true (.other 0) 1 2).unsupported = true := by decide
theorem witness_TracePortShowsCycle : (base []).status = .running ∧ (base []).params.traceEnable = false ∧
    ((base []).withTrace true).status = .running ∧ ((base []).withTrace true).params.traceEnable = true := by decide
theorem witness_StepKeepsCanonical : Canonical (base [0x45, 0]) ∧ ∃ t, step (base [0x45, 0]) = .next t := ⟨by decide, _, rfl⟩
theorem witness_BootIsCanonical : defaultParams.opcodes.wellFormed = true ∧ ∃ s, State.boot defaultParams [0x82, 0, 8] = some s :=
  ⟨by decide, _, rfl⟩
theorem witness_StepKeepsExplained : Explained (base [1]) ∧ ∃ t, step (base [1]) = .next t := ⟨trivial, _, rfl⟩
theorem witness_DispatchTableFixed : ∃ t, step (base [0x47, 0]) = .next t := ⟨_, rfl⟩
theorem witness_OnlyCmpChangesFlags : ∃ t, step (base [0xA7, 0, 1]) = .next t ∧ t.flagE ≠ (base [0xA7, 0, 1]).flagE :=
  ⟨_, rfl, by decide⟩
theorem witness_OnlyPushWritesMemory : ∃ t, step (base [0x45, 7]) = .next t ∧ t.memRead 0xF3 ≠ (base [0x45, 7]).memRead 0xF3 :=
  ⟨_, rfl, by decide⟩
theorem witness_OnlyPrnEmits : ∃ t, step (base [0x47, 0]) = .next t := ⟨_, rfl⟩
theorem witness_RegisterWriters : ∃ t, step (base [0x46, 3]) = .next t ∧ t.reg 7 ≠ (base [0x46, 3]).reg 7 := ⟨_, rfl, by decide⟩
theorem witness_PcUpdates : (∃ t, step (base [0x54, 2]) = .next t ∧ t.status = .running) ∧
    (∃ t, step ((base [0x55, 2]).setFlagE true) = .next t ∧ t.status = .running) ∧
    (∃ t, step (base [0x55, 2]) = .next t ∧ t.status = .running) ∧
    (∃ t, step (base [1]) = .next t ∧ t.status = .halted) ∧
    ∃ t, step (base [0xFF]) = .next t ∧ t.status = .failed (.illegalInstruction 0xFF 0x10) :=
  ⟨⟨_, rfl, rfl⟩, ⟨_, rfl, rfl⟩, ⟨_, rfl, rfl⟩, ⟨_, rfl, rfl⟩, _, rfl, rfl⟩
theorem witness_StickyFlagStays : ∃ t, ((base [0xA7, 0, 7] (params false true)).setFlagE true).params.cmpStickyEq = true ∧
    ((base [0xA7, 0, 7] (params false true)).setFlagE true).flagE = true ∧
    step ((base [0xA7, 0, 7] (params false true)).setFlagE true) = .next t := ⟨_, rfl, by decide, rfl⟩
theorem witness_TraceChangesNothing : (∃ t, step (base [0x47, 0]) = .next t) ∧
    ∃ f, step ((base [1]).setStatus .halted) = .fault f := ⟨⟨_, rfl⟩, _, rfl⟩
theorem witness_CanonicalMemoryUnique : Memory.wf [(3, 5), (255, 1)] = true ∧
    ∀ a, Memory.read [(3, 5), (255, 1)] a = Memory.read [(3, 5), (255, 1)] a := ⟨by decide, fun _ => rfl⟩
theorem witness_AluCmpEquality : (base []).params.cmpStickyEq = false ∧ (base []).reg 0 = (base []).reg 1 ∧
    (base []).reg 0 ≠ (base []).reg 7 := by decide
theorem witness_CmpSetsEqualFlag : (base []).reg 0 = (base []).reg 1 ∧ (base []).reg 0 ≠ (base []).reg 7 := by decide
/-- PushSeenByNextFetch: PUSHes whose store lands on the next window's opcode, on either of its operand bytes, and nowhere in
it. -/
theorem witness_PushSeenByNextFetch : ([0x13, 0x14, 0x15, 0xF4] : List Byte).all (fun sp =>
    ((base [0x45, 0]).setReg 7 sp).status == .running && ((base [0x45, 0]).setReg 7 sp).decoded == .ok (.push (Reg.byte 0))) =
      true ∧
    ([0x13, 0x14, 0x15, 0xF4] : List Byte).map (fun sp => ((base []).setReg 7 sp).pushAddr) = [0x12, 0x13, 0x14, 0xF3] := by
  decide
/-- The FetchedAs clause of each of the 17 instructions' statements (HltHalts to ShrShifts): every opcode of the two tables
stands at pc of a running machine with the default map and, where needed, ALU_EXT. -/
theorem witness_FetchedAs : ([0x01, 0x45, 0x46, 0x47, 0x54, 0x55, 0x56, 0x82, 0xA2, 0xA7, 0xA0, 0xA1, 0xA8, 0xAA, 0xAB, 0xAC, 0xAD] :
    List Byte).all (fun op => (base [op] (params true false)).status == .running &&
      (base [op] (params true false)).params.opcodes == .ls8 && (base [op] (params true false)).params.aluExt &&
      (base [op] (params true false)).memRead (base [op] (params true false)).pc == op) = true := by decide
/-- The FaultsOnOpa and FaultsOnOpb clauses of the instructions' statements, at both ends of their range; 7 is not in it. -/
theorem witness_FaultsOnOpa : 7 < (8 : Byte).toNat ∧ 7 < (255 : Byte).toNat ∧ ¬7 < (Reg.byte 7).toNat := by decide
/-- The WritesAluResult clause of AddAdds to ShrShifts: a state with ALU_EXT true. -/
theorem witness_WritesAluResult : (true = true → (base [] (params true false)).params.aluExt = true) := by decide
/-- The clauses of PopLoads and PushThenPop: a register that is SP and one that is not. -/
theorem witness_PopLoads : (6 : Reg) ≠ 7 ∧ (7 : Reg) = 7 := by decide
theorem witness_PushThenPop : (0 : Reg) ≠ 7 ∧ (7 : Reg) = 7 ∧ (6 : Reg) ≠ 7 := by decide
theorem witness_PushStores : (0 : Byte) ≠ (base []).pushAddr := by decide

end Sys2Proof.Tests
end

/-! Lemmas and proofs for 10_state.md: what a step leaves of each field of the state, and the state after reset. -/

namespace Sys2Proof.Machine

/-! ### What each way an instruction ends leaves of the state -/

section ExecFrame

variable {s t : State} {i : Instr}

/-- No instruction writes the parameters (10_state.md R32). -/
theorem ExecCase.params_eq (h : ExecCase s i t) : t.params = s.params := by
  cases h with
  | alu => exact State.writeBack_params ..
  | _ => rfl

/-- A PUSH writes memory by `Memory.write`, the others leave it: the canonical form stands. -/
theorem ExecCase.wf_mem (h : ExecCase s i t) (hm : s.mem.wf = true) : t.mem.wf = true := by
  cases h with
  | push => exact State.wf_memWrite (s := s.setReg spReg s.pushAddr) hm _ _
  | alu => rwa [State.advance_mem, State.writeBack_mem]
  | _ => exact hm

/-- FL[0] to FL[6] are never written (10_state.md R26). -/
theorem ExecCase.flag_eq (h : ExecCase s i t) {k : Fin 8} (hk : k ≠ 7) : t.flag k = s.flag k := by
  cases h with
  | alu => exact State.writeBack_flag _ _ _ _ hk
  | _ => rfl

/-- Of the ALU instructions, CMP alone drives the eq port (41_alu.md R84). -/
theorem AluInstr.eqPort_none_or_cmp {op : AluOp} {ra rb : Byte} (h : AluInstr i op ra rb) :
    (∀ x y, op.eqPort x y = none) ∨ i = .cmp ra rb := by
  cases h with
  | cmp => exact .inr rfl
  | _ => exact .inl fun _ _ => rfl

/-- The result port writes no flag. -/
theorem State.writeResult_flagE (s : State) (r : Reg) (o : Option Byte) : (s.writeResult r o).flagE = s.flagE := by
  cases o <;> rfl

/-- FL.E is CMP's to write (10_state.md R25, 45_alu_extension.md R109). -/
theorem ExecCase.cmp_of_flagE_ne (h : ExecCase s i t) (hf : t.flagE ≠ s.flagE) :
    ∃ a b : Reg, i = .cmp a.byte b.byte := by
  cases h with
  | alu _ op a b ha =>
    rcases ha.eqPort_none_or_cmp with hp | hcmp
    · exact absurd (by simp [hp, State.writeResult_flagE]) hf
    · exact ⟨a, b, hcmp⟩
  | _ => exact absurd rfl hf

/-- PRN alone emits, and one byte (42_load_output.md R91). -/
theorem ExecCase.out_cases (h : ExecCase s i t) :
    t.out = s.out ∨ ∃ a : Reg, i = .prn a.byte ∧ t.out = s.out ++ [s.reg a] := by
  cases h with
  | prn a => exact .inr ⟨a, rfl, rfl⟩
  | alu => exact .inl (State.writeBack_out ..)
  | _ => exact .inl rfl

/-- The write back changes no register but the destination. -/
theorem State.writeBack_reg (s : State) {r q : Reg} (o e) (hq : q ≠ r) :
    ((s.writeResult r o).writeEq e).reg q = s.reg q := by cases o <;> cases e <;> simp [hq]

/-- An ALU instruction other than CMP names opa as its destination (10_state.md R18). -/
theorem AluInstr.destReg_eq_or_cmp {op : AluOp} {ra rb : Byte} (h : AluInstr i op ra rb) :
    i.destReg = some ra ∨ op = .cmp := by
  cases h with
  | cmp => exact .inr rfl
  | _ => exact .inl rfl

/-- A register that reads differently is the destination, or SP under PUSH or POP (10_state.md R18, 43_stack.md R94). -/
theorem ExecCase.writer_of_reg_ne (h : ExecCase s i t) {r : Reg} (hr : t.reg r ≠ s.reg r) :
    i.destReg = some r.byte ∨ (r = 7 ∧ (i.mnemonic = .push ∨ i.mnemonic = .pop)) := by
  cases h with
  | alu _ op a b ha =>
    have hra : r = a := of_not_not fun hne => hr (State.writeBack_reg s _ _ hne)
    rcases ha.destReg_eq_or_cmp with hd | rfl
    · exact .inl (hra ▸ hd)
    · exact absurd (by simp [AluOp.value, AluOp.eqPort]) hr
  | push a =>
    have hsp : r = 7 := of_not_not fun hne => hr (by simp [hne])
    exact .inr ⟨hsp, .inl rfl⟩
  | pop a =>
    by_cases hsp : r = 7
    · exact .inr ⟨hsp, .inr rfl⟩
    · have hra : r = a := of_not_not fun hne => hr (by simp [hne, hsp])
      exact .inl (hra ▸ rfl)
  | ldi a imm =>
    have hra : r = a := of_not_not fun hne => hr (by simp [hne])
    exact .inl (hra ▸ rfl)
  | _ => exact absurd rfl hr

end ExecFrame

/-! ### The data invariant -/

/-- Taking an exception keeps the data invariant, which does not read status. -/
theorem Canonical.setStatus {s : State} (h : Canonical s) (st : Status) : Canonical (s.setStatus st) := h

theorem ExecCase.canonical {s t : State} {i : Instr} (h : ExecCase s i t) (hs : Canonical s) : Canonical t := by
  obtain ⟨hmem, hfl, hop⟩ := hs
  exact ⟨h.wf_mem hmem, fun k hk => (h.flag_eq hk).trans (hfl k hk), h.params_eq ▸ hop⟩

/-- Settles O22: each way an instruction ends keeps the three parts of the invariant, and so does IllegalInstruction. -/
theorem stepKeepsCanonical : Obligations.StepKeepsCanonical := by
  intro s t hs h
  obtain ⟨-, ⟨i, -, -, hc, -⟩ | ⟨-, rfl⟩⟩ := step_inv h
  · exact hc.canonical hs
  · exact hs.setStatus _

/-! ### pc -/

/-- Where `i` takes pc when the run goes on (10_state.md R22, 40_engine.md R74): past its own bytes, unless it is a jump that
is taken, or to the register of such a jump. -/
def NextPc (s : State) (i : Instr) (p : Byte) : Prop :=
  (p = s.pc + BitVec.ofNat 8 i.mnemonic.format.length ∧ i.mnemonic ≠ .jmp ∧
      (i.mnemonic = .jeq → s.flagE = false) ∧ (i.mnemonic = .jne → s.flagE = true)) ∨
    ∃ a : Reg, (i = .jmp a.byte ∨ (i = .jeq a.byte ∧ s.flagE = true) ∨ (i = .jne a.byte ∧ s.flagE = false)) ∧
      p = s.reg a

/-- An instruction other than JMP, JEQ and JNE goes on past its own bytes. -/
theorem NextPc.of_not_jump (s : State) {i : Instr}
    (h : i.mnemonic ≠ .jmp ∧ i.mnemonic ≠ .jeq ∧ i.mnemonic ≠ .jne) :
    NextPc s i (s.pc + BitVec.ofNat 8 i.mnemonic.format.length) := by
  obtain ⟨hjmp, hjeq, hjne⟩ := h
  exact .inl ⟨rfl, hjmp, (absurd · hjeq), (absurd · hjne)⟩

theorem AluInstr.not_jump {i : Instr} {op : AluOp} {ra rb : Byte} (h : AluInstr i op ra rb) :
    i.mnemonic ≠ .jmp ∧ i.mnemonic ≠ .jeq ∧ i.mnemonic ≠ .jne := by cases h <;> simp [Instr.mnemonic]

theorem AluInstr.length_eq {i : Instr} {op : AluOp} {ra rb : Byte} (h : AluInstr i op ra rb) :
    i.mnemonic.format.length = 3 := by cases h <;> rfl

/-- HLT has no register operand, so it takes no fault. -/
theorem ne_hlt_of_firstBadReg {i : Instr} {b : Byte} (h : i.firstBadReg = some b) : i ≠ .hlt := by
  rintro rfl
  cases h

theorem AluInstr.ne_hlt {i : Instr} {op : AluOp} {ra rb : Byte} (h : AluInstr i op ra rb) : i ≠ .hlt := by
  rintro rfl
  cases h

/-- An instruction moves pc and the run goes on, or it ends the run with pc where it was, HLT alone in Halted. -/
theorem ExecCase.pc_cases {s t : State} {i : Instr} (h : ExecCase s i t) :
    (t.status = s.status ∧ NextPc s i t.pc) ∨
      (t.status ≠ .running ∧ t.pc = s.pc ∧ (t.status = .halted ↔ i = .hlt)) := by
  cases h with
  | badReg _ b hb => exact .inr ⟨by simp, rfl, by simp [ne_hlt_of_firstBadReg hb]⟩
  | unsupported _ op ra rb ha => exact .inr ⟨by simp, rfl, by simp [ha.ne_hlt]⟩
  | hlt => exact .inr ⟨by simp, rfl, by simp⟩
  | alu _ op a b ha =>
    have hn := NextPc.of_not_jump s ha.not_jump
    rw [ha.length_eq] at hn
    exact .inl ⟨by simp, by simpa using hn⟩
  | push a => exact .inl ⟨rfl, NextPc.of_not_jump s (by simp [Instr.mnemonic])⟩
  | pop a => exact .inl ⟨rfl, NextPc.of_not_jump s (by simp [Instr.mnemonic])⟩
  | prn a => exact .inl ⟨rfl, NextPc.of_not_jump s (by simp [Instr.mnemonic])⟩
  | ldi a imm => exact .inl ⟨rfl, NextPc.of_not_jump s (by simp [Instr.mnemonic])⟩
  | jump _ a hj => exact .inl ⟨rfl, .inr ⟨a, hj, rfl⟩⟩
  | fall _ a hf =>
    refine .inl ⟨rfl, .inl ?_⟩
    rcases hf with ⟨rfl, hE⟩ | ⟨rfl, hE⟩
    · exact ⟨rfl, by simp [Instr.mnemonic, hE]⟩
    · exact ⟨rfl, by simp [Instr.mnemonic, hE]⟩

/-! ### What a step leaves of each field -/

/-- Settles O27: IllegalInstruction writes no flag, and an instruction writes FL.E only if it is a CMP. -/
theorem onlyCmpChangesFlags : Obligations.OnlyCmpChangesFlags := by
  intro s t h
  obtain ⟨-, ⟨i, hd, -, hc, -⟩ | ⟨-, rfl⟩⟩ := step_inv h
  · refine ⟨fun k hk => hc.flag_eq hk, fun hf => ?_⟩
    obtain ⟨a, b, rfl⟩ := hc.cmp_of_flagE_ne hf
    exact ⟨a, b, hd⟩
  · exact ⟨fun _ _ => rfl, fun hf => absurd rfl hf⟩

/-- Settles O29: IllegalInstruction emits nothing, and an instruction emits only if it is a PRN. -/
theorem onlyPrnEmits : Obligations.OnlyPrnEmits := by
  intro s t h
  obtain ⟨-, ⟨i, hd, -, hc, -⟩ | ⟨-, rfl⟩⟩ := step_inv h
  · rcases hc.out_cases with ho | ⟨a, rfl, ho⟩
    · exact .inl ho
    · exact .inr ⟨a, hd, ho⟩
  · exact .inl rfl

/-- Settles O30: IllegalInstruction writes no register, and an instruction only its destination or SP. -/
theorem registerWriters : Obligations.RegisterWriters := by
  intro s t r h hr
  obtain ⟨-, ⟨i, hd, -, hc, -⟩ | ⟨-, rfl⟩⟩ := step_inv h
  · exact ⟨i, hd, hc.writer_of_reg_ne hr⟩
  · exact absurd rfl hr

/-- Settles O31: pc after each way an instruction ends; IllegalInstruction keeps it. -/
theorem pcUpdates : Obligations.PcUpdates := by
  intro s t h
  obtain ⟨hrun, ⟨i, hd, -, hc, -⟩ | ⟨hd, rfl⟩⟩ := step_inv h
  · rcases hc.pc_cases with ⟨hst, hn⟩ | ⟨hst, hpc, hh⟩
    · exact .inl ⟨hst.trans hrun, i, hd, hn⟩
    · exact .inr ⟨hst, hpc, by simpa [State.decoded, hd] using hh⟩
  · exact .inr ⟨by simp, rfl, by simp [State.decoded, hd]⟩

/-! ### Reset and load -/

section Reset

variable (p : Params)

/-- The register file after reset (10_state.md R34). -/
theorem State.resetWith_reg (r : Reg) : (State.resetWith p).reg r = if r = 7 then p.spReset else 0 := by
  fin_cases r <;> rfl

theorem State.resetWith_flag (k : Fin 8) : (State.resetWith p).flag k = false := by
  fin_cases k <;> rfl

theorem State.resetWith_canonical (h : p.opcodes.wellFormed = true) : Canonical (State.resetWith p) :=
  ⟨wf_reset p, fun k _ => State.resetWith_flag p k, h⟩

/-- The loader changes nothing but memory, and leaves it in its canonical form (70_reset_and_hazards.md R128). -/
theorem State.boot_canonical {program : List Byte} {s : State} (hp : p.opcodes.wellFormed = true)
    (h : State.boot p program = some s) : Canonical s := by
  obtain ⟨hmem, hfl, hop⟩ := State.resetWith_canonical p hp
  unfold State.boot at h
  split at h
  · next hlen =>
    cases h
    exact ⟨wf_writeList program hmem (by omega), hfl, hop⟩
  · cases h

end Reset

/-- Settles O23: reset has the invariant, and the loader's writes keep it. -/
theorem bootIsCanonical : Obligations.BootIsCanonical :=
  ⟨fun p _ _ hp h => State.boot_canonical p hp h, State.resetWith_canonical defaultParams (by decide)⟩

/-- Settles O1, from the register file and the flags after reset; the other fields are those reset writes. -/
theorem resetState : Obligations.ResetState := by
  intro p
  refine ⟨fun r hr => ?_, ?_, State.resetWith_flag p, rfl, fun _ => rfl, rfl, rfl, rfl, rfl⟩
  · rw [State.resetWith_reg, if_neg hr]
  · rw [State.resetWith_reg, if_pos rfl]

/-- Settles O25: the status after reset is Running, which needs no cause. -/
theorem resetIsExplained : Obligations.ResetIsExplained := fun _ => trivial

/-! ### Canonical memories -/

theorem wfFrom_cons_iff {lo k : Nat} {v : Byte} {m : Memory} :
    Memory.wfFrom lo ((k, v) :: m) = true ↔
      lo ≤ k ∧ k < 256 ∧ v ≠ unlistedByte ∧ Memory.wfFrom (k + 1) m = true := by
  simp [Memory.wfFrom, and_assoc]

/-- The first entry of a canonical memory is listed with a byte that an unlisted address does not read as. -/
theorem read_head_ne_unlisted {lo k : Nat} {v : Byte} {m : Memory} (h : Memory.wfFrom lo ((k, v) :: m) = true) :
    Memory.read ((k, v) :: m) k ≠ unlistedByte := by
  obtain ⟨-, -, hv, -⟩ := wfFrom_cons_iff.mp h
  simpa [Memory.read] using hv

/-- The tail of a canonical memory lies above its first address. -/
theorem wfFrom_tail {lo k : Nat} {v : Byte} {m : Memory} (h : Memory.wfFrom lo ((k, v) :: m) = true) :
    Memory.wfFrom (k + 1) m = true := by
  obtain ⟨-, -, -, htail⟩ := wfFrom_cons_iff.mp h
  exact htail

/-- A canonical memory begins at its first address. -/
theorem wfFrom_head {lo k : Nat} {v : Byte} {m : Memory} (h : Memory.wfFrom lo ((k, v) :: m) = true) :
    Memory.wfFrom k ((k, v) :: m) = true := by
  obtain ⟨-, hrest⟩ := wfFrom_cons_iff.mp h
  exact wfFrom_cons_iff.mpr ⟨le_rfl, hrest⟩

/-- If two canonical memories read alike, neither begins below the other. -/
theorem head_le_of_read_eq {lo lo' k k' : Nat} {v v' : Byte} {m n : Memory}
    (hm : Memory.wfFrom lo ((k, v) :: m) = true) (hn : Memory.wfFrom lo' ((k', v') :: n) = true)
    (h : ∀ a, Memory.read ((k, v) :: m) a = Memory.read ((k', v') :: n) a) : k' ≤ k := by
  by_contra hlt
  exact read_head_ne_unlisted hm ((h k).trans (read_below (wfFrom_head hn) (by omega)))

/-- Canonical memories with the same first entry read alike only if their tails do: at that address both tails are unlisted. -/
theorem read_tail_eq {k : Nat} {v : Byte} {m n : Memory} (hm : Memory.wfFrom (k + 1) m = true)
    (hn : Memory.wfFrom (k + 1) n = true) (h : ∀ a, Memory.read ((k, v) :: m) a = Memory.read ((k, v) :: n) a) (a : Nat) :
    m.read a = n.read a := by
  by_cases ha : k = a
  · rw [read_below hm (by omega), read_below hn (by omega)]
  · simpa [Memory.read, ha] using h a

/-- Memories in canonical form from any address on are equal where they read alike. -/
theorem eq_of_read_eq {lo : Nat} {m n : Memory} (hm : Memory.wfFrom lo m = true) (hn : Memory.wfFrom lo n = true)
    (h : ∀ a, m.read a = n.read a) : m = n := by
  induction m generalizing lo n with
  | nil =>
    cases n with
    | nil => rfl
    | cons c n => exact absurd (h c.1).symm (read_head_ne_unlisted hn)
  | cons c m ih =>
    obtain ⟨k, v⟩ := c
    cases n with
    | nil => exact absurd (h k) (read_head_ne_unlisted hm)
    | cons c' n =>
      obtain ⟨k', v'⟩ := c'
      obtain rfl : k = k' :=
        le_antisymm (head_le_of_read_eq hn hm fun a => (h a).symm) (head_le_of_read_eq hm hn h)
      obtain rfl : v = v' := by simpa [Memory.read] using h k
      rw [ih (wfFrom_tail hm) (wfFrom_tail hn) (read_tail_eq (wfFrom_tail hm) (wfFrom_tail hn) h)]

/-- Settles O34, by induction on the first memory, its addresses from any bound on. -/
theorem canonicalMemoryUnique : Obligations.CanonicalMemoryUnique := fun _ _ hm hn h => eq_of_read_eq hm hn h

/-! ### Operand bytes and exit codes -/

/-- An operand byte selects the register of its number, unmasked (30_encoding.md R54). -/
theorem regOf_eq_some_iff {b : Byte} {r : Reg} : regOf b = some r ↔ b.toNat = r.val := by
  unfold regOf
  split
  · simp [Fin.ext_iff]
  · have := r.isLt
    simp; omega

theorem regOf_eq_none_iff {b : Byte} : regOf b = none ↔ 7 < b.toNat := by
  simp [regOf]; omega

theorem eq_byte_iff {b : Byte} {r : Reg} : b = r.byte ↔ b.toNat = r.val := by
  rw [← Reg.byte_toNat, BitVec.toNat_inj]

/-- Settles O9. -/
theorem operandByteSelectsRegister : Obligations.OperandByteSelectsRegister :=
  fun _ => ⟨fun _ => regOf_eq_some_iff, regOf_eq_none_iff, fun _ => eq_byte_iff⟩

/-- Settles O20: each clause is one arm of `exitCode` (60_exceptions.md R111). -/
theorem exitCodes : Obligations.ExitCodes := ⟨rfl, rfl, fun _ _ => rfl, fun _ => rfl, fun _ _ => rfl⟩

end Sys2Proof.Machine

/-! Lemmas and proofs for 20_memory.md: what the loader, a step and a PUSH leave in memory. -/

namespace Sys2Proof.Machine

/-! ### The loader -/

/-- A program that fits is written from address 0 on into the reset memory (20_memory.md R44). -/
theorem State.boot_of_fits (p : Params) {program : List Byte} (h : program.length ≤ 256) :
    State.boot p program = some { State.resetWith p with mem := (State.resetWith p).mem.writeList 0 program } :=
  if_pos h

theorem State.boot_of_too_long (p : Params) {program : List Byte} (h : 256 < program.length) :
    State.boot p program = none := if_neg (by omega)

/-- Written from address 0 on over the reset memory, byte `b` of the program stands at address `b`. -/
theorem read_writeList_reset (p : Params) (program : List Byte) (b : Nat) :
    ((State.resetWith p).mem.writeList 0 program).read b = if h : b < program.length then program[b] else 0 := by
  rw [read_writeList]
  by_cases hb : b < program.length
  · simp [hb]
  · rw [if_neg (by omega), dif_neg hb]
    rfl

/-- Settles O2: the loader's writes change memory alone, and are read back at their own addresses. -/
theorem loadPlacesProgram : Obligations.LoadPlacesProgram := fun p program =>
  ⟨fun hlen => ⟨_, State.boot_of_fits p hlen, fun q => read_writeList_reset p program q.toNat, rfl⟩,
    State.boot_of_too_long p⟩

/-! ### Writes to memory -/

/-- An instruction that changes a byte of memory is a PUSH, and the byte stands where it stores (20_memory.md R35). -/
theorem ExecCase.push_of_memRead_ne {s t : State} {i : Instr} (h : ExecCase s i t) {q : Byte}
    (hq : t.memRead q ≠ s.memRead q) : q = s.pushAddr ∧ ∃ a : Reg, i = .push a.byte := by
  cases h with
  | push a =>
    have hstore : q = s.pushAddr := of_not_not fun hne => hq (by simp [hne])
    exact ⟨hstore, a, rfl⟩
  | alu => exact absurd (by simp [State.memRead]) hq
  | _ => exact absurd rfl hq

/-- Settles O28: IllegalInstruction writes no memory, and an instruction only if it is a PUSH. -/
theorem onlyPushWritesMemory : Obligations.OnlyPushWritesMemory := by
  intro s t q h hq
  obtain ⟨-, ⟨i, hd, -, hc, -⟩ | ⟨-, rfl⟩⟩ := step_inv h
  · obtain ⟨hstore, a, rfl⟩ := hc.push_of_memRead_ne hq
    exact ⟨hstore, hstore, a, hd⟩
  · exact absurd rfl hq

/-! ### Fetching what a PUSH stored -/

/-- A running machine runs the instruction it decodes (40_engine.md R65). -/
theorem step_of_decoded {s : State} {i : Instr} (hr : s.status = .running) (hd : s.decoded = .ok i) :
    step s = exec i s := by
  simp [step, hr, hd]

/-- The byte a PUSH of `a` stores: x[a] after the decrement of SP (43_stack.md R92). -/
def State.pushByte (s : State) (a : Reg) : Byte := (s.setReg spReg s.pushAddr).reg a

theorem State.pushByte_eq (s : State) (a : Reg) : s.pushByte a = if a = 7 then s.reg 7 - 1 else s.reg a :=
  State.setReg_reg ..

/-- The state after a PUSH of `a` (43_stack.md R92). -/
def State.pushed (s : State) (a : Reg) : State :=
  ((s.setReg spReg s.pushAddr).memWrite s.pushAddr (s.pushByte a)).advance 2

theorem exec_push_byte (a : Reg) (s : State) : exec (.push a.byte) s = .next (s.pushed a) := withReg_byte ..

theorem State.pushed_memRead (s : State) (a : Reg) (q : Byte) :
    (s.pushed a).memRead q = if q = s.pushAddr then s.pushByte a else s.memRead q :=
  State.memWrite_memRead ..

/-- The window after a PUSH is read from the memory as the PUSH left it (20_memory.md R48, 40_engine.md R69). -/
theorem State.pushed_fetch (s : State) (a : Reg) :
    (s.pushed a).fetch =
      ⟨(s.pushed a).memRead (s.pc + 2), (s.pushed a).memRead (s.pc + 3), (s.pushed a).memRead (s.pc + 4)⟩ := by
  have hpc : (s.pushed a).pc = s.pc + 2 := rfl
  have hopa : s.pc + 2 + 1 = s.pc + 3 := BitVec.add_assoc ..
  have hopb : s.pc + 2 + 2 = s.pc + 4 := BitVec.add_assoc ..
  rw [State.fetch, hpc, hopa, hopb]

/-- Settles O56: the next window and every other read go to the memory that the PUSH wrote. -/
theorem pushSeenByNextFetch : Obligations.PushSeenByNextFetch := by
  intro a s hr hd
  refine ⟨s.pushed a, s.pushByte a, ?_, hr, rfl, s.pushByte_eq a, ?_, ?_, ?_, s.pushed_memRead a⟩
  · exact (step_of_decoded hr hd).trans (exec_push_byte a s)
  all_goals rw [State.pushed_fetch, ← State.pushed_memRead]

end Sys2Proof.Machine

/-! Lemmas and proofs for 30_encoding.md: the round trip of encoder and decoder, and the opcodes of the dispatch table. -/

namespace Sys2Proof

/-! ### The round trip of encoder and decoder -/

/-- A mnemonic the machine has is one that needs no ALU_EXT or has it (45_alu_extension.md R101). -/
theorem Mnemonic.available_iff {k : Mnemonic} {ext : Bool} :
    (ext || !k.isExt) = true ↔ (k.isExt = true → ext = true) := by
  cases k.isExt <;> simp

/-- The window at the head of a list: its first byte, then the next two, or 0x00 past the end (30_encoding.md R51). -/
theorem Window.ofBytes_cons (b : Byte) (bs : List Byte) :
    Window.ofBytes (b :: bs) = ⟨b, bs.getD 0 0, bs.getD 1 0⟩ := by
  match bs with
  | [] | [_] | _ :: _ :: _ => rfl

/-- An instruction is made again from its mnemonic and its operand bytes, whatever follows them (30_encoding.md R62). -/
theorem Instr.assemble_operandBytes (i : Instr) (rest : List Byte) :
    i.mnemonic.assemble ((i.operandBytes ++ rest).getD 0 0) ((i.operandBytes ++ rest).getD 1 0) = i := by
  cases i <;> rfl

/-- An assembled instruction's encoding is as many bytes of opcode, opa and opb as its format uses (30_encoding.md R51). -/
theorem encode_assemble (m : OpcodeMap) (k : Mnemonic) (opa opb : Byte) :
    encode m (k.assemble opa opb) = [m.opcode k, opa, opb].take k.format.length := by
  cases k <;> rfl

theorem decode_of_dispatch {m : OpcodeMap} {ext : Bool} {w : Window} {k : Mnemonic}
    (h : dispatch m ext w.ir = some k) : decode m ext w = .ok (k.assemble w.opa w.opb) := by
  rw [decode, h]

/-- Settles O4: an injective map dispatches the opcode to the instruction's mnemonic, and the bytes after it are the operand
bytes it is made from. -/
theorem decodeOfEncode : Obligations.DecodeOfEncode := by
  intro m ext i rest hm hext
  have hdisp : dispatch m ext (m.opcode i.mnemonic) = some i.mnemonic :=
    dispatch_opcode hm (Mnemonic.available_iff.mpr hext)
  rw [encode, List.cons_append, Window.ofBytes_cons, decode_of_dispatch hdisp, Instr.assemble_operandBytes]

/-- Settles O5: a decoded instruction is assembled from the window's operand bytes under the window's opcode byte. -/
theorem encodeOfDecode : Obligations.EncodeOfDecode := by
  intro m ext w i h
  obtain ⟨hop, havail, hi⟩ := decode_ok_mnemonic h
  refine ⟨?_, Mnemonic.available_iff.mp havail⟩
  calc encode m i = encode m (i.mnemonic.assemble w.opa w.opb) := by rw [← hi]
    _ = [w.ir, w.opa, w.opb].take i.mnemonic.format.length := by rw [encode_assemble, hop]

/-- Settles O3: each word is looked up in the default map. -/
theorem decodeWrittenWords : Obligations.DecodeWrittenWords := by
  unfold Obligations.DecodeWrittenWords
  decide

/-! ### The opcodes of the dispatch table -/

/-- The opcode bytes of the mnemonics the machine has (30_encoding.md R52, 45_alu_extension.md R101). -/
def tableOpcodes (m : OpcodeMap) (ext : Bool) : List Byte :=
  (Mnemonic.all.filter fun k => ext || !k.isExt).map m.opcode

/-- The dispatch table has no entry exactly for the bytes that are none of its opcodes (30_encoding.md R56). -/
theorem dispatch_eq_none_iff_notMem {m : OpcodeMap} {ext : Bool} {ir : Byte} :
    dispatch m ext ir = none ↔ ir ∉ tableOpcodes m ext := by
  simp [dispatch_none, tableOpcodes, Mnemonic.mem_all]

/-- Decoding reports the opcode byte as illegal exactly if it is none of the dispatch table's opcodes (30_encoding.md R56). -/
theorem decode_eq_illegalOpcode_iff {m : OpcodeMap} {ext : Bool} {w : Window} :
    decode m ext w = .illegalOpcode w.ir ↔ w.ir ∉ tableOpcodes m ext := by
  rw [← dispatch_eq_none_iff_notMem]
  rcases decode_cases m ext w with ⟨k, hk, hd⟩ | ⟨hk, hd⟩ <;> simp [hk, hd]

/-- Settles O6: the two lists are the opcodes of the default map's dispatch tables. -/
theorem illegalOpcodesExactly : Obligations.IllegalOpcodesExactly :=
  fun _ => ⟨decode_eq_illegalOpcode_iff, decode_eq_illegalOpcode_iff⟩

/-- An injective map's dispatch table lists no opcode twice (30_encoding.md R52). -/
theorem tableOpcodes_nodup {m : OpcodeMap} (h : m.wellFormed = true) (ext : Bool) : (tableOpcodes m ext).Nodup :=
  (of_decide_eq_true h).sublist (List.filter_sublist.map m.opcode)

/-- The numbers of the byte values in a list without repetition are the numbers of its bytes. -/
theorem filter_range_mem_perm {bs : List Byte} (h : bs.Nodup) :
    ((List.range 256).filter fun n => BitVec.ofNat 8 n ∈ bs).Perm (bs.map BitVec.toNat) := by
  refine (List.perm_ext_iff_of_nodup (List.nodup_range.filter _) (h.map BitVec.toNat_injective)).mpr fun n => ?_
  simp only [List.mem_filter, List.mem_range, decide_eq_true_eq, List.mem_map]
  constructor
  · rintro ⟨hlt, hmem⟩
    exact ⟨_, hmem, Nat.mod_eq_of_lt hlt⟩
  · rintro ⟨b, hb, rfl⟩
    exact ⟨b.isLt, by rwa [BitVec.ofNat_toNat, BitVec.setWidth_eq]⟩

/-- Under an injective map, all byte values but one for each opcode of the dispatch table are illegal (30_encoding.md R56). -/
theorem length_filter_dispatch_eq_none {m : OpcodeMap} (h : m.wellFormed = true) (ext : Bool) :
    ((List.range 256).filter fun n => dispatch m ext (BitVec.ofNat 8 n) == none).length =
      256 - (tableOpcodes m ext).length := by
  have hillegal : ∀ n, (dispatch m ext (BitVec.ofNat 8 n) == none) = !decide (BitVec.ofNat 8 n ∈ tableOpcodes m ext) := by
    intro n
    rw [Bool.eq_iff_iff, beq_iff_eq, dispatch_eq_none_iff_notMem, Bool.not_eq_true', decide_eq_false_iff_not]
  have hlegal := (filter_range_mem_perm (tableOpcodes_nodup h ext)).length_eq
  have htotal := List.length_eq_length_filter_add (l := List.range 256)
    fun n => decide (BitVec.ofNat 8 n ∈ tableOpcodes m ext)
  rw [List.length_map] at hlegal
  rw [List.length_range, hlegal] at htotal
  simp only [hillegal]
  omega

/-- Settles O7: the dispatch table of the default map has 10 opcodes, and 17 with ALU_EXT. -/
theorem illegalOpcodeCounts : Obligations.IllegalOpcodeCounts :=
  ⟨length_filter_dispatch_eq_none (by decide) false, length_filter_dispatch_eq_none (by decide) true⟩

/-! ### The fields of the opcode byte -/

/-- Settles O8: the three fields of each opcode of the default map. -/
theorem opcodeFieldsAgree : Obligations.OpcodeFieldsAgree := by
  intro k
  cases k <;> decide

end Sys2Proof

/-! Lemmas and proofs for 40_engine.md: the cycle, the ways a step can end the run, and the trace port. -/

namespace Sys2Proof.Machine

/-! ### How a step ends the run -/

theorem explained_of_running {s : State} (h : s.status = .running) : Explained s := by
  simp [Explained, h]

/-- A decoded instruction keeps the status, or changes it alone, to one whose cause stands at pc (40_engine.md R72,
44_control.md R99); UnsupportedOperation would need an operator outside the set (41_alu.md R83). -/
theorem ExecCase.keeps_status_or_stops {s t : State} {i : Instr} (h : ExecCase s i t) (hd : s.decoded = .ok i)
    (hsup : ∀ op ra rb, AluInstr i op ra rb → op.supported s.params.aluExt = true) :
    t.status = s.status ∨ ∃ st, t = s.setStatus st ∧ Explained t := by
  cases h with
  | badReg _ b hb => exact .inr ⟨_, rfl, rfl, i, hd, hb⟩
  | unsupported _ op ra rb ha hu => simp [hsup op ra rb ha] at hu
  | hlt => exact .inr ⟨.halted, rfl, hd⟩
  | alu => exact .inl (by simp)
  | _ => exact .inl rfl

/-- A step goes on Running, or changes status alone, to one whose cause stands at pc (40_engine.md R66, R76). -/
theorem step_runs_or_stops {s t : State} (h : step s = .next t) :
    t.status = .running ∨ ∃ st, t = s.setStatus st ∧ Explained t := by
  obtain ⟨hrun, ⟨i, hd, -, hc, hsup⟩ | ⟨hd, rfl⟩⟩ := step_inv h
  · exact (hc.keeps_status_or_stops hd hsup).imp_left (·.trans hrun)
  · exact .inr ⟨_, rfl, rfl, rfl, hd⟩

/-- Settles O24: a step ends Running, which needs no cause, or in a status that its cause explains. -/
theorem stepKeepsExplained : Obligations.StepKeepsExplained := by
  intro s t _ h
  rcases step_runs_or_stops h with hrun | ⟨-, -, hexp⟩
  · exact explained_of_running hrun
  · exact hexp

/-- Settles O16: a step that does not end Running changes status alone. -/
theorem faultChangesOnlyStatus : Obligations.FaultChangesOnlyStatus := by
  intro s t c h hc
  rcases step_runs_or_stops h with hrun | ⟨st, rfl, -⟩
  · rw [hc] at hrun
    cases hrun
  · obtain rfl : st = .failed c := hc
    rfl

/-! ### The register check -/

/-- The check of the only register operand raises what `firstBadReg` reports. -/
theorem withReg_of_firstBadReg {i : Instr} {ra b : Byte} (hl : i.regOperands = [ra]) (h : i.firstBadReg = some b)
    (s : State) (k : Reg → Host.Outcome State Fault Refusal) :
    withReg ra s k = raise (.registerIndexFault b s.pc) s := by
  rcases byte_cases ra with ⟨a, rfl⟩ | hbad
  · simp [Instr.firstBadReg, hl] at h
  · obtain rfl : ra = b := by simpa [firstBadReg_left hl hbad] using h
    exact withReg_bad hbad s k

theorem AluInstr.regOperands_eq {i : Instr} {op : AluOp} {ra rb : Byte} (h : AluInstr i op ra rb) :
    i.regOperands = [ra, rb] := by cases h <;> rfl

/-- The check of an ALU instruction raises what `firstBadReg` reports. -/
theorem execAlu_of_firstBadReg {i : Instr} {op : AluOp} {ra rb b : Byte} (hi : AluInstr i op ra rb)
    (h : i.firstBadReg = some b) (s : State) : execAlu op ra rb s = raise (.registerIndexFault b s.pc) s := by
  have hl := hi.regOperands_eq
  rcases byte_cases ra with ⟨x, rfl⟩ | hbad
  · rcases byte_cases rb with ⟨y, rfl⟩ | hbad
    · simp [Instr.firstBadReg, hl] at h
    · obtain rfl : rb = b := by simpa [firstBadReg_right hl hbad] using h
      exact execAlu_bad_right x hbad op s
  · obtain rfl : ra = b := by simpa [firstBadReg_left hl hbad] using h
    exact execAlu_bad_left hbad op rb s

/-- Settles O15: each instruction checks the register operands its format defines, opa first, before its effect. -/
theorem registerIndexFaultTaken : Obligations.RegisterIndexFaultTaken := by
  intro i b s h
  cases i with
  | hlt => cases h
  | push ra => exact withReg_of_firstBadReg rfl h s _
  | pop ra => exact withReg_of_firstBadReg rfl h s _
  | prn ra => exact withReg_of_firstBadReg rfl h s _
  | jmp ra => exact withReg_of_firstBadReg rfl h s _
  | jeq ra => exact withReg_of_firstBadReg rfl h s _
  | jne ra => exact withReg_of_firstBadReg rfl h s _
  | ldi ra imm => exact withReg_of_firstBadReg rfl h s _
  | mul ra rb => exact execAlu_of_firstBadReg (.mul ra rb) h s
  | cmp ra rb => exact execAlu_of_firstBadReg (.cmp ra rb) h s
  | add ra rb => exact execAlu_of_firstBadReg (.add ra rb) h s
  | sub ra rb => exact execAlu_of_firstBadReg (.sub ra rb) h s
  | and ra rb => exact execAlu_of_firstBadReg (.and ra rb) h s
  | or ra rb => exact execAlu_of_firstBadReg (.or ra rb) h s
  | xor ra rb => exact execAlu_of_firstBadReg (.xor ra rb) h s
  | shl ra rb => exact execAlu_of_firstBadReg (.shl ra rb) h s
  | shr ra rb => exact execAlu_of_firstBadReg (.shr ra rb) h s

/-! ### The cycle -/

/-- A running machine whose opcode is not in the table takes IllegalInstruction (40_engine.md R71). -/
theorem step_of_illegalOpcode {s : State} {ir : Byte} (hr : s.status = .running) (hd : s.decoded = .illegalOpcode ir) :
    step s = raise (.illegalInstruction ir s.pc) s := by
  simp [step, hr, hd]

/-- The model's step stops in a terminal status (40_engine.md R68). -/
theorem step_of_not_running {s : State} (h : s.status ≠ .running) : step s = .fault .terminated := by
  rcases step_cases s with ⟨hr, -⟩ | ⟨hr, -⟩ | ⟨-, hs⟩
  · exact absurd hr h
  · exact absurd hr h
  · exact hs

theorem State.decoded_of_dispatch_none {s : State}
    (h : dispatch s.params.opcodes s.params.aluExt (s.memRead s.pc) = none) :
    s.decoded = .illegalOpcode (s.memRead s.pc) :=
  decode_eq_illegalOpcode_iff.mpr (dispatch_eq_none_iff_notMem.mp h)

/-- Settles O11: the step's form where a running machine decodes an instruction. -/
theorem stepRunsDecoded : Obligations.StepRunsDecoded := fun _ _ => step_of_decoded

/-- Settles O12: in a running state decoding answers an instruction, and exec answers for each, or the illegal opcode. -/
theorem stepDefinedIffRunning : Obligations.StepDefinedIffRunning := by
  intro s
  have hcycle : s.status = .running →
      (∃ i, s.decoded = .ok i ∧ step s = exec i s) ∨
      (s.decoded = .illegalOpcode s.fetch.ir ∧ step s = .next (s.failedWith (.illegalInstruction s.fetch.ir s.pc))) := by
    intro hr
    rcases decode_cases s.params.opcodes s.params.aluExt s.fetch with ⟨k, -, hd⟩ | ⟨-, hd⟩
    · exact .inl ⟨_, hd, step_of_decoded hr hd⟩
    · exact .inr ⟨hd, step_of_illegalOpcode hr hd⟩
  refine ⟨⟨fun ⟨t, h⟩ => (step_inv h).1, fun hr => ?_⟩, hcycle⟩
  rcases hcycle hr with ⟨i, -, hs⟩ | ⟨-, hs⟩
  · obtain ⟨t, ht, -⟩ := exec_case i s
    exact ⟨t, hs.trans ht⟩
  · exact ⟨_, hs⟩

/-- Settles O13: a step that answers a next state began Running. -/
theorem noStepFromTerminal : Obligations.NoStepFromTerminal := fun _ _ hne h => hne (step_inv h).1

/-- The default map gives 0x00 to no mnemonic (70_reset_and_hazards.md R131). -/
theorem dispatch_ls8_zero (ext : Bool) : dispatch .ls8 ext 0 = none := by
  cases ext <;> decide

/-- Settles O14: the byte at pc decodes to none of the table's opcodes. -/
theorem illegalInstructionTaken : Obligations.IllegalInstructionTaken := by
  intro s hr
  have hillegal : dispatch s.params.opcodes s.params.aluExt (s.memRead s.pc) = none →
      step s = .next (s.failedWith (.illegalInstruction (s.memRead s.pc) s.pc)) :=
    fun h => step_of_illegalOpcode hr (State.decoded_of_dispatch_none h)
  refine ⟨hillegal, fun hmap hzero => ?_, rfl⟩
  rw [hzero, hmap] at hillegal
  exact hillegal (dispatch_ls8_zero _)

/-- Settles O10: the fetch adds modulo 256 (10_state.md R23). -/
theorem fetchReadsWindow : Obligations.FetchReadsWindow := by
  intro s
  refine ⟨rfl, ?_, ?_⟩
  · exact congrArg s.mem.read (BitVec.toNat_add s.pc 1)
  · exact congrArg s.mem.read (BitVec.toNat_add s.pc 2)

/-! ### The trace port -/

theorem tracePort_of_running {s : State} (h : s.status = .running) :
    tracePort s = if s.params.traceEnable then some ⟨s.pc, s.fetch, s.regs⟩ else none := by
  simp [tracePort, h]

theorem tracePort_of_not_running {s : State} (h : s.status ≠ .running) : tracePort s = none := by
  cases hs : s.status with
  | running => exact absurd hs h
  | halted => simp [tracePort, hs]
  | failed c => simp [tracePort, hs]

/-- Settles O21: a running cycle's entry holds the fetch window and the registers of the state itself. -/
theorem tracePortShowsCycle : Obligations.TracePortShowsCycle := by
  intro s hr
  constructor
  · intro hen
    exact ⟨⟨s.pc, s.fetch, s.regs⟩, by rw [tracePort_of_running hr, if_pos hen], rfl, rfl, rfl, rfl, fun _ => rfl⟩
  · intro hdis
    rw [tracePort_of_running hr, hdis, if_neg Bool.false_ne_true]

/-- Settles O57: neither the step nor the trace port has a case for a terminal status but its stop. -/
theorem terminalStepStops : Obligations.TerminalStepStops :=
  fun _ h => ⟨step_of_not_running h, tracePort_of_not_running h⟩

/-! ### The trace setting -/

/-- The outcome with TRACE_ENABLE set to `b` in its next state, where it has one. -/
def outcomeWithTrace (b : Bool) : Host.Outcome State Fault Refusal → Host.Outcome State Fault Refusal
  | .next t => .next (t.withTrace b)
  | .fault f => .fault f
  | .refused r => .refused r

/-- `f` reads TRACE_ENABLE nowhere: setting it before `f` or after it is the same (40_engine.md R70). -/
def TraceBlind (f : State → Host.Outcome State Fault Refusal) : Prop :=
  ∀ (s : State) (b : Bool), f (s.withTrace b) = outcomeWithTrace b (f s)

theorem TraceBlind.withReg (ra : Byte) {k : State → Reg → Host.Outcome State Fault Refusal}
    (hk : ∀ r, TraceBlind (k · r)) : TraceBlind fun s => withReg ra s (k s) := by
  intro s b
  rcases byte_cases ra with ⟨r, rfl⟩ | hbad
  · simpa using hk r s b
  · simp only [withReg_bad hbad]
    rfl

/-- A case split on what TRACE_ENABLE does not change. -/
theorem TraceBlind.ite {c : State → Bool} (hc : ∀ s b, c (s.withTrace b) = c s)
    {f g : State → Host.Outcome State Fault Refusal} (hf : TraceBlind f) (hg : TraceBlind g) :
    TraceBlind fun s => if c s then f s else g s := by
  intro s b
  simp only [hc, hf s b, hg s b]
  split <;> rfl

/-- The write back of the ALU reads CMP_STICKY_EQ of the parameters, and no other. -/
theorem State.writeBack_withTrace (s : State) (b : Bool) (r : Reg) (o e) :
    ((s.withTrace b).writeResult r o).writeEq e = ((s.writeResult r o).writeEq e).withTrace b := by
  cases o <;> cases e <;> rfl

theorem execAlu_traceBlind (op : AluOp) (ra rb : Byte) : TraceBlind (execAlu op ra rb) := by
  refine .withReg ra fun x => .withReg rb fun y => ?_
  refine .ite (c := fun s => (alu s.params.aluExt op (s.reg x) (s.reg y)).unsupported) (fun _ _ => rfl) ?_ ?_
  · exact fun _ _ => rfl
  · exact fun s b => congrArg (fun t => Host.Outcome.next (t.advance 3)) (s.writeBack_withTrace b x _ _)

theorem jumpIf_traceBlind {taken : State → Bool} (ht : ∀ s b, taken (s.withTrace b) = taken s) (ra : Byte) :
    TraceBlind fun s => jumpIf (taken s) ra s := by
  refine TraceBlind.withReg ra fun a s b => ?_
  beta_reduce
  rw [ht]
  cases taken s <;> rfl

theorem exec_traceBlind (i : Instr) : TraceBlind (exec i) := by
  cases i with
  | hlt => exact fun _ _ => rfl
  | push ra => exact .withReg ra fun _ _ _ => rfl
  | pop ra => exact .withReg ra fun _ _ _ => rfl
  | prn ra => exact .withReg ra fun _ _ _ => rfl
  | jmp ra => exact jumpIf_traceBlind (taken := fun _ => true) (fun _ _ => rfl) ra
  | jeq ra => exact jumpIf_traceBlind (taken := fun s => s.flagE) (fun _ _ => rfl) ra
  | jne ra => exact jumpIf_traceBlind (taken := fun s => !s.flagE) (fun _ _ => rfl) ra
  | ldi ra imm => exact .withReg ra fun _ _ _ => rfl
  | mul ra rb => exact execAlu_traceBlind .mul ra rb
  | cmp ra rb => exact execAlu_traceBlind .cmp ra rb
  | add ra rb => exact execAlu_traceBlind .add ra rb
  | sub ra rb => exact execAlu_traceBlind .sub ra rb
  | and ra rb => exact execAlu_traceBlind .and ra rb
  | or ra rb => exact execAlu_traceBlind .or ra rb
  | xor ra rb => exact execAlu_traceBlind .xor ra rb
  | shl ra rb => exact execAlu_traceBlind .shl ra rb
  | shr ra rb => exact execAlu_traceBlind .shr ra rb

/-- Fetch and decode read no trace setting, and no instruction does. -/
theorem step_traceBlind : TraceBlind step := by
  intro s b
  by_cases hr : s.status = .running
  · cases hd : s.decoded with
    | ok i =>
      rw [step_of_decoded hr hd, step_of_decoded (s := s.withTrace b) hr hd]
      exact exec_traceBlind i s b
    | illegalOpcode ir =>
      rw [step_of_illegalOpcode hr hd, step_of_illegalOpcode (s := s.withTrace b) hr hd]
      rfl
  · rw [step_of_not_running hr, step_of_not_running (s := s.withTrace b) hr]
    rfl

/-- Settles O33: the step with the setting is the step without it, the setting put into its next state. -/
theorem traceChangesNothing : Obligations.TraceChangesNothing := by
  intro s b
  constructor
  · intro t h
    rw [step_traceBlind, h]
    rfl
  · intro f h
    rw [step_traceBlind, h]
    rfl

/-! ### The parameters -/

/-- The parameters are read-only (10_state.md R32). -/
theorem step_params_eq {s t : State} (h : step s = .next t) : t.params = s.params := by
  obtain ⟨-, ⟨i, -, -, hc, -⟩ | ⟨-, rfl⟩⟩ := step_inv h
  · exact hc.params_eq
  · rfl

/-- Settles O26: decoding reads the opcode map and ALU_EXT, which are parameters. -/
theorem dispatchTableFixed : Obligations.DispatchTableFixed := by
  intro s t h
  have hp := step_params_eq h
  exact ⟨hp, fun w => by rw [hp]⟩

end Sys2Proof.Machine

/-! Lemmas and proofs for 41_alu.md: the operator set, what an ALU instruction leaves of the state, MUL and CMP. -/

namespace Sys2Proof.Machine

/-! ### The operator set -/

/-- The ALU reports unsupported exactly outside its operator set (41_alu.md R83). -/
theorem alu_unsupported_iff {ext : Bool} {op : AluOp} {a b : Byte} :
    (alu ext op a b).unsupported = true ↔ op.supported ext = false := by
  cases hs : op.supported ext with
  | true => simp [alu_supported hs]
  | false => simp [alu_unsupported hs]

/-- The normative operator set is ADD, MUL and CMP (41_alu.md R81). -/
theorem AluOp.supported_false_eq_false_iff {op : AluOp} :
    op.supported false = false ↔ op ≠ .add ∧ op ≠ .mul ∧ op ≠ .cmp := by
  cases op <;> simp [AluOp.supported]

/-- ALU_EXT widens the set to every named operator (45_alu_extension.md R100). -/
theorem AluOp.supported_true_eq_false_iff {op : AluOp} : op.supported true = false ↔ ∃ n, op = .other n := by
  cases op <;> simp [AluOp.supported]

/-- An operator that drives the result port leaves the eq port undriven (41_alu.md R82, R84). -/
theorem AluOp.eqPort_eq_none_of_value {op : AluOp} {x y v : Byte} (h : op.value x y = some v) :
    op.eqPort x y = none := by
  cases op with
  | cmp => cases h
  | _ => rfl

theorem AluOp.add_value_toNat (x y : Byte) :
    ∃ v, AluOp.value .add x y = some v ∧ v.toNat = (x.toNat + y.toNat) % 256 :=
  ⟨x + y, rfl, BitVec.toNat_add x y⟩

theorem AluOp.mul_value_toNat (x y : Byte) :
    ∃ v, AluOp.value .mul x y = some v ∧ v.toNat = x.toNat * y.toNat % 256 :=
  ⟨x * y, rfl, BitVec.toNat_mul x y⟩

/-! ### What an ALU instruction does -/

section AluInstruction

variable {i : Instr} {op : AluOp}

/-- Each ALU instruction passes its own operator to the ALU (45_alu_extension.md R100). -/
theorem AluInstr.exec_eq {ra rb : Byte} (h : AluInstr i op ra rb) (s : State) : exec i s = execAlu op ra rb s := by
  cases h <;> rfl

/-- An ALU instruction whose operator the ALU lacks changes status alone (41_alu.md R83). -/
theorem AluInstr.exec_unsupported {a b : Reg} (h : AluInstr i op a.byte b.byte) {s : State}
    (hu : op.supported s.params.aluExt = false) : exec i s = .next (s.failedWith (.unsupportedOperation op)) :=
  (h.exec_eq s).trans (execAlu_unsupported hu a b)

/-- An ALU instruction whose operator drives a result stores it in the first register (41_alu.md R86). -/
theorem AluInstr.exec_of_value {a b : Reg} (h : AluInstr i op a.byte b.byte) {s : State}
    (hs : op.supported s.params.aluExt = true) {v : Byte} (hv : op.value (s.reg a) (s.reg b) = some v) :
    exec i s = .next ((s.setReg a v).advance 3) := by
  rw [h.exec_eq, execAlu_supported hs, hv, AluOp.eqPort_eq_none_of_value hv, State.writeResult_some,
    State.writeEq_none]

end AluInstruction

/-- An instruction whose operator computes `f`, and is in the set wherever the instruction is, writes `f` of its registers. -/
theorem writesAluResult_of_value {ext : Bool} {mk : Byte → Byte → Instr} {op : AluOp} {f : Nat → Nat → Nat}
    (hi : ∀ ra rb, AluInstr (mk ra rb) op ra rb) (hs : ∀ e, (ext = true → e = true) → op.supported e = true)
    (hv : ∀ x y : Byte, ∃ v, op.value x y = some v ∧ v.toNat = f x.toNat y.toNat) : WritesAluResult ext mk f := by
  intro a b s hext
  obtain ⟨v, hval, hnat⟩ := hv (s.reg a) (s.reg b)
  refine ⟨(s.setReg a v).advance 3, (hi _ _).exec_of_value (hs _ hext) hval, ?_, fun r hr => ?_, rfl, fun _ => rfl,
    fun _ => rfl, rfl, rfl, rfl⟩
  · rwa [State.advance_reg, State.setReg_reg, if_pos rfl]
  · rw [State.advance_reg, State.setReg_reg, if_neg (List.ne_of_not_mem_cons hr)]

/-! ### The clauses every instruction's statement has -/

/-- Under the default map, the byte at pc runs the mnemonic it is the opcode of (30_encoding.md R52, R56). -/
theorem fetchedAs_assemble (k : Mnemonic) : FetchedAs (OpcodeMap.ls8.opcode k) k.isExt k.assemble := by
  intro s hr hmap hext hop
  have hdisp : dispatch s.params.opcodes s.params.aluExt s.fetch.ir = some k := by
    rw [hmap, State.fetch, hop]
    exact dispatch_opcode (by decide) (Mnemonic.available_iff.mpr hext)
  exact step_of_decoded hr (decode_of_dispatch hdisp)

/-- An instruction whose first register operand is byte 1 faults on a byte above 7 there (40_engine.md R72). -/
theorem faultsOnOpa_of_regOperands {mk : Byte → Instr} {l : List Byte} (h : ∀ ra, (mk ra).regOperands = ra :: l) :
    FaultsOnOpa mk :=
  fun ra s hbad => registerIndexFaultTaken _ _ s (firstBadReg_left (h ra) hbad)

/-- An instruction of format RR faults on a byte above 7 in byte 2, where byte 1 is a register (40_engine.md R72). -/
theorem faultsOnOpb_of_regOperands {mk : Byte → Byte → Instr} (h : ∀ ra rb, (mk ra rb).regOperands = [ra, rb]) :
    FaultsOnOpb mk :=
  fun a rb s hbad => registerIndexFaultTaken _ _ s (firstBadReg_right (h a.byte rb) hbad)

/-! ### The flag of CMP -/

theorem cmpFlag_of_equal (sticky old : Bool) : cmpFlag sticky old true = true := by
  cases sticky <;> rfl

theorem cmpFlag_of_unequal (sticky old : Bool) : cmpFlag sticky old false = if sticky = true then old else false := by
  cases sticky <;> rfl

/-- Under CMP_STICKY_EQ a set flag stays set, whatever is compared (70_reset_and_hazards.md R135). -/
theorem cmpFlag_sticky_of_set (eq : Bool) : cmpFlag true true eq = true := by
  cases eq <;> rfl

/-- The state after a CMP of `a` and `b` (41_alu.md R87). -/
def State.compared (s : State) (a b : Reg) : State :=
  (s.setFlagE (cmpFlag s.params.cmpStickyEq s.flagE (s.reg a == s.reg b))).advance 3

theorem exec_cmp_byte (a b : Reg) (s : State) : exec (.cmp a.byte b.byte) s = .next (s.compared a b) :=
  execAlu_supported rfl a b

section Compared

variable {s : State} {a b : Reg}

theorem State.compared_flagE : (s.compared a b).flagE = cmpFlag s.params.cmpStickyEq s.flagE (s.reg a == s.reg b) :=
  State.setFlagE_flagE ..

theorem State.compared_flagE_of_eq (h : s.reg a = s.reg b) : (s.compared a b).flagE = true := by
  rw [State.compared_flagE, h, beq_self_eq_true, cmpFlag_of_equal]

theorem State.compared_flagE_of_ne (h : s.reg a ≠ s.reg b) :
    (s.compared a b).flagE = if s.params.cmpStickyEq = true then s.flagE else false := by
  rw [State.compared_flagE, beq_false_of_ne h, cmpFlag_of_unequal]

theorem State.compared_flag_of_ne_seven {k : Fin 8} (hk : k ≠ 7) : (s.compared a b).flag k = s.flag k := by
  rw [State.compared, State.advance_flag, State.setFlagE_flag, if_neg hk]

end Compared

/-! ### CMP_STICKY_EQ over a step -/

/-- The eq port clears no set flag under CMP_STICKY_EQ (41_alu.md R87). -/
theorem State.writeEq_flagE_of_sticky {s : State} (hs : s.params.cmpStickyEq = true) (hE : s.flagE = true)
    (e : Option Bool) : (s.writeEq e).flagE = true := by
  cases e with
  | none => exact hE
  | some e => rw [State.writeEq_some, State.setFlagE_flagE, hs, hE, cmpFlag_sticky_of_set]

/-- The result port writes no parameter. -/
theorem State.writeResult_params (s : State) (r : Reg) (o : Option Byte) : (s.writeResult r o).params = s.params := by
  cases o <;> rfl

/-- No instruction clears FL.E under CMP_STICKY_EQ (70_reset_and_hazards.md R135). -/
theorem ExecCase.flagE_of_sticky {s t : State} {i : Instr} (h : ExecCase s i t)
    (hs : s.params.cmpStickyEq = true) (hE : s.flagE = true) : t.flagE = true := by
  cases h with
  | alu =>
    exact State.writeEq_flagE_of_sticky (by rwa [State.writeResult_params]) (by rwa [State.writeResult_flagE]) _
  | _ => exact hE

/-! ### The statements -/

/-- Settles O18: a step that does not go on Running ends in a status that its cause explains, and nothing explains
UnsupportedOperation. -/
theorem unsupportedOperationUnreachable : Obligations.UnsupportedOperationUnreachable := by
  intro s t op h hst
  rcases step_runs_or_stops h with hrun | ⟨-, -, hexp⟩
  · rw [hst] at hrun
    cases hrun
  · simp [Explained, hst] at hexp

/-- Settles O32: IllegalInstruction writes no flag, no instruction clears this one, and the parameters stay. -/
theorem stickyFlagStays : Obligations.StickyFlagStays := by
  intro s t hs hE h
  refine ⟨?_, by rw [step_params_eq h, hs]⟩
  obtain ⟨-, ⟨i, -, -, hc, -⟩ | ⟨-, rfl⟩⟩ := step_inv h
  · exact hc.flagE_of_sticky hs hE
  · exact hE

/-- Settles O46: the clauses of an ALU instruction, for MUL and its product. -/
theorem mulMultiplies : Obligations.MulMultiplies :=
  ⟨fetchedAs_assemble .mul, writesAluResult_of_value .mul (fun _ _ => rfl) AluOp.mul_value_toNat,
    fun _ => faultsOnOpa_of_regOperands fun _ => rfl, faultsOnOpb_of_regOperands fun _ _ => rfl⟩

/-- Settles O47: a CMP of two registers ends in `State.compared`, which differs in FL.E and pc. -/
theorem cmpSetsEqualFlag : Obligations.CmpSetsEqualFlag := by
  refine ⟨fetchedAs_assemble .cmp, fun a b s => ?_, fun _ => faultsOnOpa_of_regOperands fun _ => rfl,
    faultsOnOpb_of_regOperands fun _ _ => rfl⟩
  exact ⟨s.compared a b, exec_cmp_byte a b s, State.compared_flagE_of_eq, State.compared_flagE_of_ne,
    fun _ => State.compared_flag_of_ne_seven, fun _ _ => rfl, rfl, fun _ => rfl, rfl, rfl, rfl⟩

/-- Settles O19: the operator sets, then each extension instruction's operator outside the normative one. -/
theorem aluContractBoundary : Obligations.AluContractBoundary := by
  refine ⟨fun _ _ _ => alu_unsupported_iff.trans AluOp.supported_false_eq_false_iff,
    fun _ _ _ => alu_unsupported_iff.trans AluOp.supported_true_eq_false_iff, fun ext op a b h => ?_, fun a b s hext => ?_⟩
  · rw [alu_unsupported (alu_unsupported_iff.mp h)]
    exact ⟨rfl, rfl⟩
  · exact ⟨AluInstr.exec_unsupported (.sub ..) hext, AluInstr.exec_unsupported (.and ..) hext,
      AluInstr.exec_unsupported (.or ..) hext, AluInstr.exec_unsupported (.xor ..) hext,
      AluInstr.exec_unsupported (.shl ..) hext, AluInstr.exec_unsupported (.shr ..) hext⟩

/-- Settles O35: both operators are in the set with or without ALU_EXT, so the result port carries their value. -/
theorem aluAddMulTruncate : Obligations.AluAddMulTruncate := by
  intro ext a b
  rw [alu_supported (op := .add) rfl, alu_supported (op := .mul) rfl]
  exact ⟨AluOp.add_value_toNat a b, AluOp.mul_value_toNat a b⟩

/-- Settles O36: bytes are equal exactly if their bits are, and a CMP stores that in FL.E where the flag is not sticky. -/
theorem aluCmpEquality : Obligations.AluCmpEquality := by
  refine ⟨fun ext a b => ?_, fun a b s hsticky => ?_⟩
  · rw [alu_supported (op := .cmp) rfl]
    exact ⟨rfl, a == b, rfl, beq_iff_eq.trans ⟨fun h _ _ => by rw [h], BitVec.eq_of_getLsbD_eq⟩⟩
  · refine ⟨s.compared a b, exec_cmp_byte a b s, State.compared_flagE_of_eq, fun hne => ?_⟩
    rw [State.compared_flagE_of_ne hne, hsticky, if_neg Bool.false_ne_true]

/-- Settles O37: each stores its product in its first register, and multiplication modulo 256 commutes. -/
theorem mulCommutes : Obligations.MulCommutes := by
  intro a b s
  refine ⟨_, _, AluInstr.exec_of_value (.mul ..) rfl rfl, AluInstr.exec_of_value (.mul ..) rfl rfl, ?_⟩
  simp [BitVec.mul_comm]

/-- Settles O58: ADD is an extension mnemonic, and what decodes to one needs ALU_EXT. -/
theorem noNormativeAdd : Obligations.NoNormativeAdd := by
  intro m w ra rb h
  obtain ⟨-, hext⟩ := encodeOfDecode m false w _ h
  exact absurd (hext rfl) Bool.false_ne_true

end Sys2Proof.Machine

/-! Lemmas and proofs for 42_load_output.md: LDI and PRN. -/

namespace Sys2Proof.Machine

/-! ### What LDI and PRN do -/

/-- A PRN of register `a` completes (42_load_output.md R91). -/
theorem exec_prn_byte (a : Reg) (s : State) : exec (.prn a.byte) s = .next ((s.emit (s.reg a)).advance 2) :=
  withReg_byte ..

/-- An LDI into register `a` completes, whatever the immediate (42_load_output.md R90). -/
theorem exec_ldi_byte (a : Reg) (imm : Byte) (s : State) :
    exec (.ldi a.byte imm) s = .next ((s.setReg a imm).advance 3) :=
  withReg_byte ..

/-- A register write and a pc update leave every other register. -/
theorem sameRegsBut_setReg_advance (s : State) (a : Reg) (v n : Byte) :
    SameRegsBut [a] s ((s.setReg a v).advance n) := by
  intro r hr
  rw [State.advance_reg, State.setReg_reg, if_neg (List.ne_of_not_mem_cons hr)]

/-! ### The statements -/

/-- Settles O41: PRN writes the output and pc, and the frame is what `emit` and the pc update leave. -/
theorem prnEmits : Obligations.PrnEmits := by
  refine ⟨fetchedAs_assemble .prn, fun a s => ?_, faultsOnOpa_of_regOperands fun _ => rfl⟩
  exact ⟨_, exec_prn_byte a s, State.emit_out .., rfl, fun _ _ => rfl, fun _ => rfl, fun _ => rfl, rfl, rfl⟩

/-- Settles O45: LDI writes one register and pc, and its register check never reads the immediate. -/
theorem ldiLoads : Obligations.LdiLoads := by
  refine ⟨fetchedAs_assemble .ldi, fun a imm s => ?_, fun _ => faultsOnOpa_of_regOperands fun _ => rfl⟩
  have hreg : ((s.setReg a imm).advance 3).reg a = imm := by
    rw [State.advance_reg, State.setReg_reg, if_pos rfl]
  exact ⟨_, exec_ldi_byte a imm s, hreg, sameRegsBut_setReg_advance s a imm 3, rfl, fun _ => rfl, fun _ => rfl,
    rfl, rfl, rfl⟩

end Sys2Proof.Machine

/-! Lemmas and proofs for 43_stack.md: PUSH, POP, and the pair of them. -/

namespace Sys2Proof.Machine

/-! ### PUSH -/

section Pushed

variable (s : State) (a : Reg)

/-- PUSH leaves SP at the address it stored to (43_stack.md R92). -/
theorem State.pushed_reg_sp : (s.pushed a).reg 7 = s.pushAddr := by
  rw [State.pushed, State.advance_reg, State.memWrite_reg, State.setReg_reg, if_pos rfl]

/-- PUSH writes no register but SP, also not the one it pushes (43_stack.md R94). -/
theorem State.pushed_reg_of_ne {r : Reg} (hr : r ≠ 7) : (s.pushed a).reg r = s.reg r := by
  rw [State.pushed, State.advance_reg, State.memWrite_reg, State.setReg_reg, if_neg hr]

theorem State.pushed_memRead_pushAddr : (s.pushed a).memRead s.pushAddr = s.pushByte a := by
  rw [State.pushed_memRead, if_pos rfl]

theorem State.pushed_memRead_of_ne {q : Byte} (hq : q ≠ s.pushAddr) : (s.pushed a).memRead q = s.memRead q := by
  rw [State.pushed_memRead, if_neg hq]

theorem State.pushByte_of_ne (ha : a ≠ 7) : s.pushByte a = s.reg a := by
  rw [State.pushByte_eq, if_neg ha]

/-- PUSH R7 stores the decremented SP (43_stack.md R92, spec decision D11). -/
theorem State.pushByte_sp : s.pushByte 7 = s.pushAddr := by
  rw [State.pushByte_eq, if_pos rfl, State.pushAddr]

/-- Incrementing SP, modulo 256, takes back the decrement of a PUSH (20_memory.md R42). -/
theorem State.pushAddr_add_one : s.pushAddr + 1 = s.reg 7 := BitVec.sub_add_cancel ..

end Pushed

/-! ### POP -/

/-- The byte a POP loads: the one at SP (43_stack.md R93). -/
def State.popByte (s : State) : Byte := s.memRead (s.reg spReg)

/-- The state after a POP of `b` (43_stack.md R93): SP is incremented as the load left it. -/
def State.popped (s : State) (b : Reg) : State :=
  ((s.setReg b s.popByte).setReg spReg ((s.setReg b s.popByte).reg spReg + 1)).advance 2

/-- A POP into register `b` completes (43_stack.md R93). -/
theorem exec_pop_byte (b : Reg) (s : State) : exec (.pop b.byte) s = .next (s.popped b) := withReg_byte ..

section Popped

variable (s : State) {b : Reg}

/-- POP R7 leaves the loaded byte plus 1 (43_stack.md R93, spec decision D12). -/
theorem State.popped_sp_reg_sp : (s.popped 7).reg 7 = s.popByte + 1 := by
  rw [State.popped, State.advance_reg, State.setReg_reg, if_pos rfl, State.setReg_reg, if_pos rfl]

theorem State.popped_reg_sp (hb : b ≠ 7) : (s.popped b).reg 7 = s.reg 7 + 1 := by
  rw [State.popped, State.advance_reg, State.setReg_reg, if_pos rfl, State.setReg_reg, if_neg hb.symm]

theorem State.popped_reg_dest (hb : b ≠ 7) : (s.popped b).reg b = s.popByte := by
  rw [State.popped, State.advance_reg, State.setReg_reg, if_neg hb, State.setReg_reg, if_pos rfl]

/-- POP writes no register but its destination and SP (43_stack.md R94). -/
theorem State.popped_reg_of_ne {r : Reg} (hrb : r ≠ b) (hr : r ≠ 7) : (s.popped b).reg r = s.reg r := by
  rw [State.popped, State.advance_reg, State.setReg_reg, if_neg hr, State.setReg_reg, if_neg hrb]

end Popped

/-! ### PUSH, then POP -/

section PushedPopped

variable (s : State) (a : Reg)

/-- Last in, first out: a POP after a PUSH loads the byte that the PUSH stored (43_stack.md R95). -/
theorem State.pushed_popByte : (s.pushed a).popByte = s.pushByte a := by
  rw [State.popByte, State.pushed_reg_sp, State.pushed_memRead_pushAddr]

/-- A POP into a register other than SP leaves SP where it was before the PUSH (43_stack.md R95). -/
theorem State.pushed_popped_reg_sp {b : Reg} (hb : b ≠ 7) : ((s.pushed a).popped b).reg 7 = s.reg 7 := by
  rw [State.popped_reg_sp _ hb, State.pushed_reg_sp, State.pushAddr_add_one]

theorem State.pushed_popped_reg_dest {b : Reg} (hb : b ≠ 7) : ((s.pushed a).popped b).reg b = s.pushByte a := by
  rw [State.popped_reg_dest _ hb, State.pushed_popByte]

theorem State.pushed_popped_sp_reg_sp : ((s.pushed a).popped 7).reg 7 = s.pushByte a + 1 := by
  rw [State.popped_sp_reg_sp, State.pushed_popByte]

/-- Neither PUSH nor POP writes a register that is neither POP's destination nor SP (43_stack.md R94). -/
theorem State.pushed_popped_reg_of_ne {b r : Reg} (hrb : r ≠ b) (hr : r ≠ 7) :
    ((s.pushed a).popped b).reg r = s.reg r := by
  rw [State.popped_reg_of_ne _ hrb hr, State.pushed_reg_of_ne _ _ hr]

end PushedPopped

/-! ### The statements -/

/-- Settles O39: a PUSH of a register ends in `State.pushed`, which differs in SP, in the byte stored and in pc. -/
theorem pushStores : Obligations.PushStores := by
  refine ⟨fetchedAs_assemble .push, fun a s => ?_, faultsOnOpa_of_regOperands fun _ => rfl⟩
  have hbyte : (s.pushed a).memRead s.pushAddr = if a = 7 then s.reg 7 - 1 else s.reg a :=
    (s.pushed_memRead_pushAddr a).trans (s.pushByte_eq a)
  have hframe : SameRegsBut [7] s (s.pushed a) := fun r hr => s.pushed_reg_of_ne a (List.ne_of_not_mem_cons hr)
  exact ⟨s.pushed a, exec_push_byte a s, rfl, s.pushed_reg_sp a, hbyte, fun _ => s.pushed_memRead_of_ne a, hframe,
    rfl, fun _ => rfl, rfl, rfl, rfl⟩

/-- Settles O40: a POP of a register ends in `State.popped`, which differs in that register, in SP and in pc. -/
theorem popLoads : Obligations.PopLoads := by
  refine ⟨fetchedAs_assemble .pop, fun b s => ?_, faultsOnOpa_of_regOperands fun _ => rfl⟩
  have hsp : b = 7 → (s.popped b).reg 7 = s.popByte + 1 := by
    rintro rfl
    exact s.popped_sp_reg_sp
  have hframe : SameRegsBut [b, 7] s (s.popped b) := fun r hr => by
    exact s.popped_reg_of_ne (List.ne_of_not_mem_cons hr) (List.ne_of_not_mem_cons (List.not_mem_of_not_mem_cons hr))
  exact ⟨s.popped b, exec_pop_byte b s, fun hb => ⟨s.popped_reg_dest hb, s.popped_reg_sp hb⟩, hsp, hframe,
    rfl, fun _ => rfl, fun _ => rfl, rfl, rfl, rfl⟩

/-- Settles O55: the POP loads the byte pushed, and its increment of SP takes back the decrement, unless it loads into SP; a
pushed SP is the decremented one, so that POP R7 then gives SP back as well. -/
theorem pushThenPop : Obligations.PushThenPop := by
  intro a b s
  refine ⟨s.pushed a, (s.pushed a).popped b, exec_push_byte a s, exec_pop_byte b _, fun hb => ?_, ?_, ?_⟩
  · refine ⟨(s.pushed_popped_reg_dest a hb).trans (s.pushByte_eq a), s.pushed_popped_reg_sp a hb, fun r hrb => ?_⟩
    by_cases hr : r = 7
    · exact hr ▸ s.pushed_popped_reg_sp a hb
    · exact s.pushed_popped_reg_of_ne a hrb hr
  · rintro rfl rfl r
    by_cases hr : r = 7
    · rw [hr, State.pushed_popped_sp_reg_sp, State.pushByte_sp, State.pushAddr_add_one]
    · exact s.pushed_popped_reg_of_ne 7 hr hr
  · rintro rfl ha
    refine ⟨?_, fun r hr => s.pushed_popped_reg_of_ne a hr hr⟩
    rw [State.pushed_popped_sp_reg_sp, State.pushByte_of_ne s a ha]

end Sys2Proof.Machine

/-! Lemmas and proofs for 44_control.md: JMP, JEQ, JNE and HLT. -/

namespace Sys2Proof.Machine

/-! ### What the jumps and HLT do -/

/-- A jump to register `a`, taken or not, completes and writes pc alone (40_engine.md R74). -/
theorem jumpIf_byte (taken : Bool) (a : Reg) (s : State) :
    jumpIf taken a.byte s = .next (s.setPc (if taken = true then s.reg a else s.pc + 2)) := by
  rw [jumpIf, withReg_byte]
  cases taken with
  | true => rfl
  | false => rfl

/-- JMP is a jump that is always taken (44_control.md R96). -/
theorem exec_jmp_byte (a : Reg) (s : State) : exec (.jmp a.byte) s = .next (s.setPc (s.reg a)) := jumpIf_byte true a s

/-- JEQ is taken if FL.E is set (44_control.md R97). -/
theorem exec_jeq_byte (a : Reg) (s : State) :
    exec (.jeq a.byte) s = .next (s.setPc (if s.flag 7 = true then s.reg a else s.pc + 2)) :=
  jumpIf_byte s.flagE a s

/-- JNE is taken if FL.E is not set (44_control.md R98). -/
theorem exec_jne_byte (a : Reg) (s : State) :
    exec (.jne a.byte) s = .next (s.setPc (if s.flag 7 = true then s.pc + 2 else s.reg a)) := by
  have hjump : exec (.jne a.byte) s = .next (s.setPc (if (!s.flag 7) = true then s.reg a else s.pc + 2)) :=
    jumpIf_byte (!s.flagE) a s
  rw [hjump]
  cases s.flag 7 with
  | true => rfl
  | false => rfl

/-- HLT completes in every state, and pc stays (44_control.md R99). -/
theorem exec_hlt (s : State) : exec .hlt s = .next (s.setStatus .halted) := rfl

/-- An instruction that completes with pc alone written leaves the rest of the state. -/
theorem pc_and_frame_of_setPc {i : Instr} {s : State} {p : Byte} (h : exec i s = .next (s.setPc p)) :
    ∃ t, exec i s = .next t ∧ t.pc = p ∧ SameRegsBut [] s t ∧ SameFlags s t ∧ SameMemory s t ∧ SameRest s t :=
  ⟨s.setPc p, h, rfl, fun _ _ => rfl, fun _ => rfl, fun _ => rfl, rfl, rfl, rfl⟩

/-! ### The statements -/

/-- Settles O42: JMP writes pc alone, from the register. -/
theorem jmpSetsPc : Obligations.JmpSetsPc :=
  ⟨fetchedAs_assemble .jmp, fun a s => pc_and_frame_of_setPc (exec_jmp_byte a s), faultsOnOpa_of_regOperands fun _ => rfl⟩

/-- Settles O43: JEQ writes pc alone, by FL.E from the register or past its own bytes. -/
theorem jeqJumpsIfEqual : Obligations.JeqJumpsIfEqual :=
  ⟨fetchedAs_assemble .jeq, fun a s => pc_and_frame_of_setPc (exec_jeq_byte a s), faultsOnOpa_of_regOperands fun _ => rfl⟩

/-- Settles O44: JNE writes pc alone, by FL.E past its own bytes or from the register. -/
theorem jneJumpsIfNotEqual : Obligations.JneJumpsIfNotEqual :=
  ⟨fetchedAs_assemble .jne, fun a s => pc_and_frame_of_setPc (exec_jne_byte a s), faultsOnOpa_of_regOperands fun _ => rfl⟩

/-- Settles O38: HLT writes status alone, and Halted presents exit code 0 (10_state.md R28). -/
theorem hltHalts : Obligations.HltHalts := by
  refine ⟨fetchedAs_assemble .hlt, fun s => ⟨s.setStatus .halted, exec_hlt s, ?_⟩⟩
  exact ⟨rfl, rfl, rfl, fun _ _ => rfl, fun _ => rfl, fun _ => rfl, rfl, rfl⟩

end Sys2Proof.Machine

/-! Lemmas and proofs for 45_alu_extension.md: the seven instructions that ALU_EXT adds. -/

namespace Sys2Proof.Machine

/-! ### What each extension operator computes -/

theorem AluOp.sub_value_toNat (x y : Byte) :
    ∃ v, AluOp.value .sub x y = some v ∧ v.toNat = (x.toNat + 256 - y.toNat) % 256 := by
  have hwrap : (x - y).toNat = (x.toNat + 256 - y.toNat) % 256 := by
    have := y.isLt
    rw [BitVec.toNat_sub]
    omega
  exact ⟨x - y, rfl, hwrap⟩

theorem AluOp.and_value_toNat (x y : Byte) :
    ∃ v, AluOp.value .and x y = some v ∧ v.toNat = x.toNat &&& y.toNat :=
  ⟨x &&& y, rfl, BitVec.toNat_and x y⟩

theorem AluOp.or_value_toNat (x y : Byte) :
    ∃ v, AluOp.value .or x y = some v ∧ v.toNat = x.toNat ||| y.toNat :=
  ⟨x ||| y, rfl, BitVec.toNat_or x y⟩

theorem AluOp.xor_value_toNat (x y : Byte) :
    ∃ v, AluOp.value .xor x y = some v ∧ v.toNat = x.toNat ^^^ y.toNat :=
  ⟨x ^^^ y, rfl, BitVec.toNat_xor x y⟩

/-- The amount is the whole byte: from 8 on every bit is shifted out (45_alu_extension.md R107). -/
theorem AluOp.shl_value_toNat (x n : Byte) :
    ∃ v, AluOp.value .shl x n = some v ∧ v.toNat = x.toNat * 2 ^ n.toNat % 256 := by
  refine ⟨x <<< n.toNat, rfl, ?_⟩
  rw [BitVec.toNat_shiftLeft, Nat.shiftLeft_eq]

/-- The shift is logical, by the whole byte (45_alu_extension.md R108). -/
theorem AluOp.shr_value_toNat (x n : Byte) :
    ∃ v, AluOp.value .shr x n = some v ∧ v.toNat = x.toNat / 2 ^ n.toNat := by
  refine ⟨x >>> n.toNat, rfl, ?_⟩
  rw [BitVec.toNat_ushiftRight, Nat.shiftRight_eq_div_pow]

/-! ### The clauses of an instruction that stores its operator's result -/

/-- ALU_EXT puts the operator of every ALU instruction into the set (45_alu_extension.md R100). -/
theorem AluInstr.supported_true {i : Instr} {op : AluOp} {ra rb : Byte} (h : AluInstr i op ra rb) :
    op.supported true = true :=
  supported_of_decoded h (Bool.true_or _)

/-- The template of 45_alu_extension.md section 2: encoding, result and frame, and both register checks. -/
theorem extInstr_clauses_of_value {k : Mnemonic} {op : AluOp} {f : Nat → Nat → Nat} (hk : k.isExt = true)
    (hi : ∀ ra rb, AluInstr (k.assemble ra rb) op ra rb)
    (hv : ∀ x y : Byte, ∃ v, op.value x y = some v ∧ v.toNat = f x.toNat y.toNat) :
    FetchedAs (OpcodeMap.ls8.opcode k) true k.assemble ∧ WritesAluResult true k.assemble f ∧
      (∀ rb : Byte, FaultsOnOpa fun ra => k.assemble ra rb) ∧ FaultsOnOpb k.assemble := by
  have hregs : ∀ ra rb, (k.assemble ra rb).regOperands = [ra, rb] := fun ra rb => (hi ra rb).regOperands_eq
  refine ⟨hk ▸ fetchedAs_assemble k, writesAluResult_of_value hi (fun e he => ?_) hv,
    fun rb => faultsOnOpa_of_regOperands fun ra => hregs ra rb, faultsOnOpb_of_regOperands hregs⟩
  rw [he rfl]
  exact (hi 0 0).supported_true

/-! ### The statements -/

/-- Settles O48: the template for ADD, whose operator the ALU has without the extension too. -/
theorem addAdds : Obligations.AddAdds := extInstr_clauses_of_value (k := .add) rfl .add AluOp.add_value_toNat

/-- Settles O49: the template for SUB, whose difference wraps modulo 256. -/
theorem subSubtracts : Obligations.SubSubtracts := extInstr_clauses_of_value (k := .sub) rfl .sub AluOp.sub_value_toNat

/-- Settles O50: the template for AND. -/
theorem andConjoins : Obligations.AndConjoins := extInstr_clauses_of_value (k := .and) rfl .and AluOp.and_value_toNat

/-- Settles O51: the template for OR. -/
theorem orDisjoins : Obligations.OrDisjoins := extInstr_clauses_of_value (k := .or) rfl .or AluOp.or_value_toNat

/-- Settles O52: the template for XOR. -/
theorem xorDiffers : Obligations.XorDiffers := extInstr_clauses_of_value (k := .xor) rfl .xor AluOp.xor_value_toNat

/-- Settles O53: the template for SHL, whose amount no operation reduces modulo 8. -/
theorem shlShifts : Obligations.ShlShifts := extInstr_clauses_of_value (k := .shl) rfl .shl AluOp.shl_value_toNat

/-- Settles O54: the template for SHR, a floor division. -/
theorem shrShifts : Obligations.ShrShifts := extInstr_clauses_of_value (k := .shr) rfl .shr AluOp.shr_value_toNat

end Sys2Proof.Machine

/-! Lemmas and proofs for 60_exceptions.md: which steps end in Failed. -/

namespace Sys2Proof.Machine

/-- The register check of 40_engine.md R72 fails exactly where it has a byte to report. -/
theorem wellFormed_eq_false_iff {i : Instr} : i.wellFormed = false ↔ ∃ b, i.firstBadReg = some b := by
  rw [Instr.wellFormed, Instr.firstBadReg, ← Option.isSome_iff_exists, List.find?_isSome]
  simp

/-- The cause of an explained Failed is one of two, since nothing explains UnsupportedOperation (60_exceptions.md R111). -/
theorem Explained.decoded_of_failed {t : State} (h : Explained t) (hf : t.status.isSafe = false) :
    t.decoded = .illegalOpcode (t.memRead t.pc) ∨ ∃ i, t.decoded = .ok i ∧ i.wellFormed = false := by
  cases hst : t.status with
  | running | halted => simp [hst, Status.isSafe] at hf
  | failed c =>
    rw [Explained, hst] at h
    cases c with
    | illegalInstruction ir p =>
      obtain ⟨-, rfl, hd⟩ := h
      exact .inl hd
    | registerIndexFault b p =>
      obtain ⟨-, i, hd, hb⟩ := h
      exact .inr ⟨i, hd, wellFormed_eq_false_iff.mpr ⟨b, hb⟩⟩
    | unsupportedOperation op => exact h.elim

/-- Settles O17: a Failed status has its cause in the state the step began in, and either cause there is raised. -/
theorem onlyTwoFailures : Obligations.OnlyTwoFailures := by
  intro s t hr h
  constructor
  · intro hf
    rcases step_runs_or_stops h with hrun | ⟨st, rfl, hexp⟩
    · simp [hrun, Status.isSafe] at hf
    · exact hexp.decoded_of_failed hf
  · rintro (hd | ⟨i, hd, hwf⟩)
    · rw [step_of_illegalOpcode hr hd] at h
      cases h
      rfl
    · obtain ⟨b, hb⟩ := wellFormed_eq_false_iff.mp hwf
      rw [step_of_decoded hr hd, registerIndexFaultTaken i b s hb] at h
      cases h
      rfl

end Sys2Proof.Machine
